-- ==== Sys2Proof/Word.lean ====
section
/-! DEFINITION. The words of the Checksum Engine: every value of the spec is an unsigned integer, bit 0 the least
significant (00_scope.md R10). -/

namespace Sys2Proof

/-- One byte of the host's buffer, 0 to 255, and the field `imm8` of a command word (20_memory.md R42, R62). -/
abbrev Byte := BitVec 8

/-- One command word, 16 bits presented in parallel (30_encoding.md R60, R61; CWW of 00_scope.md R7). -/
abbrev CommandWord := BitVec 16

/-- The accumulator's word: ACCW = 64 bits (00_scope.md R6). -/
abbrev Accumulator := BitVec 64

/-- The word of LEN and LENGTH: LENW = 32 bits (00_scope.md R7). -/
abbrev Length := BitVec 32

/-- The word of the port VALUE: VALW = 32 bits (00_scope.md R7). -/
abbrev Value := BitVec 32

end Sys2Proof
end

