-- ==== Sys2Proof/Syntax.lean ====
section
/-! DEFINITION. The commands of CSE-1, one constructor per row of the opcode table (30_encoding.md R63), the three widths
(00_scope.md R4), and the lines of the spec's assembler (30_encoding.md R69, R70). -/

namespace Sys2Proof

/-- A command as the decoder hands it to the engine (30_encoding.md R63). A word that is no command has no constructor: the
decoder rejects it and the engine raises IllegalCommand (R66). -/
inductive Instr where
  /-- `INIT w`: select the width `w` and start a run (42_width_dispatch.md R112). Every byte is a legal operand of the encoding; one
  that is no width raises InvalidWidth when executed (30_encoding.md R67). -/
  | init (w : Byte)
  /-- `PUSH b`: add one input byte (41_checksum.md R92). -/
  | push (b : Byte)
  /-- `PAD`: append filler bytes to the alignment and close the input (40_pad.md R82). -/
  | pad
  /-- `SUM`: check the alignment, mask, publish the result (41_checksum.md R97). -/
  | sum
deriving DecidableEq, Repr

/-- The three widths of the checksum (00_scope.md R4, glossary "Width"). -/
inductive Width where
  | w8
  | w16
  | w32
deriving DecidableEq, Repr

/-- A line of the spec's assembler syntax (30_encoding.md R69) or a pseudo-instruction (R70). Operands are numbers as written,
before any range check: `AsmLine.wellFormed` says which lines the assembler takes. -/
inductive AsmLine where
  | init (w : Nat)
  | push (b : Nat)
  /-- `PUSH 'c'`, a quoted ASCII character standing for its code. -/
  | pushChar (c : Char)
  | pad
  | sum
  /-- `.word v`: a raw 16-bit word. -/
  | word (v : Nat)
  /-- `FIN`: PAD then SUM. -/
  | fin
  /-- `PUSHS "text"`: one PUSH per character. -/
  | pushs (text : List Char)
  /-- `RUN w, "text"`: INIT w, PUSHS "text", FIN. -/
  | run (w : Nat) (text : List Char)
deriving DecidableEq, Repr

end Sys2Proof
end

