-- ==== Sys2Proof/WellFormed.lean ====
section
/-! DEFINITION. Which terms of the syntax are well formed. A command's operand is a byte by its type and all 256 bytes are encodable
for INIT and PUSH (30_encoding.md R63), so the checks that can fail are the assembler's (R69). -/

namespace Sys2Proof

/-- Every command term has an encoding: `INIT w` and `PUSH b` take any byte, `PAD` and `SUM` take none (30_encoding.md R63, R65). -/
def Instr.wellFormed (i : Instr) : Bool :=
  match i with
  | .init _ => true
  | .push _ => true
  | .pad => true
  | .sum => true

/-- A character the assembler takes between quotes: an ASCII character, and for the bytes' sake its code is below 128
(30_encoding.md R69, R70). -/
def asciiChar (c : Char) : Bool := c.toNat < 128

/-- The assembler encodes any operand 0 to 255 of INIT and PUSH, any 16-bit `.word`, and ASCII text (30_encoding.md R69, R70). -/
def AsmLine.wellFormed (l : AsmLine) : Bool :=
  match l with
  | .init w => w < 256
  | .push b => b < 256
  | .pushChar c => asciiChar c
  | .pad => true
  | .sum => true
  | .word v => v < 65536
  | .fin => true
  | .pushs text => text.all asciiChar
  | .run w text => (decide (w < 256)) && text.all asciiChar

end Sys2Proof
end

