-- ==== Sys2Proof/Decode.lean ====
section
/-! DEFINITION. The command encoding CW16: fields, the decoder (total on all 65,536 words, rejecting by name), the encoder, and the
opcode table as rows of match and mask (30_encoding.md R60 to R68). -/

namespace Sys2Proof

/-- `op = cw[15:12]` (30_encoding.md R60). -/
def opField (cw : CommandWord) : BitVec 4 := cw.extractLsb' 12 4

/-- `zero = cw[11:8]`, which must be 0 (30_encoding.md R60). -/
def zeroField (cw : CommandWord) : BitVec 4 := cw.extractLsb' 8 4

/-- `imm8 = cw[7:0]`, unsigned, neither extended nor scaled at decode (30_encoding.md R60, R62). -/
def immField (cw : CommandWord) : Byte := cw.extractLsb' 0 8

/-- Why a word is Illegal (30_encoding.md R66; the three names are the model's, the fault is one and the same: log entry 12). -/
inductive DecodeError where
  /-- `cw[11:8] != 0`. -/
  | reservedBits
  /-- `op` is 0 or 5 to 15. -/
  | unassignedOpcode
  /-- PAD or SUM with `imm8 != 0x00`. -/
  | nonzeroImmediate
deriving DecidableEq, Repr

/-- Decoding, in the order of 30_encoding.md R64. It does not depend on the engine's state. -/
def decode (cw : CommandWord) : Except DecodeError Instr :=
  if zeroField cw ≠ 0#4 then .error .reservedBits
  else if opField cw = 0x1#4 then .ok (.init (immField cw))
  else if opField cw = 0x2#4 then .ok (.push (immField cw))
  else if opField cw = 0x3#4 then
    if immField cw = 0x00#8 then .ok .pad else .error .nonzeroImmediate
  else if opField cw = 0x4#4 then
    if immField cw = 0x00#8 then .ok .sum else .error .nonzeroImmediate
  else .error .unassignedOpcode

/-- The word is Illegal: the decoder rejects it (30_encoding.md R64, R66). -/
def isIllegal (cw : CommandWord) : Bool :=
  match decode cw with
  | .ok _ => false
  | .error _ => true

/-- The command word of a command: `{op, 0000, imm8}` (30_encoding.md R60, R63). -/
def encode (i : Instr) : CommandWord :=
  match i with
  | .init w => 0x1#4 ++ 0x0#4 ++ w
  | .push b => 0x2#4 ++ 0x0#4 ++ b
  | .pad => 0x3#4 ++ 0x0#4 ++ 0x00#8
  | .sum => 0x4#4 ++ 0x0#4 ++ 0x00#8

/-- A row of the opcode map (30_encoding.md R63). -/
structure OpcodeRow where
  mnemonic : String
  pattern : CommandWord
  mask : CommandWord
deriving DecidableEq, Repr

/-- The opcode map's four rows with their match and mask (30_encoding.md R63). -/
def opcodeTable : List OpcodeRow :=
  [ ⟨"INIT", 0x1000#16, 0xFF00#16⟩,
    ⟨"PUSH", 0x2000#16, 0xFF00#16⟩,
    ⟨"PAD", 0x3000#16, 0xFFFF#16⟩,
    ⟨"SUM", 0x4000#16, 0xFFFF#16⟩ ]

/-- "A word matches a row when `cw & mask = match`" (30_encoding.md R63). -/
def OpcodeRow.covers (r : OpcodeRow) (cw : CommandWord) : Bool := cw &&& r.mask == r.pattern

/-- The row a command belongs to. -/
def Instr.row (i : Instr) : OpcodeRow :=
  match i with
  | .init _ => ⟨"INIT", 0x1000#16, 0xFF00#16⟩
  | .push _ => ⟨"PUSH", 0x2000#16, 0xFF00#16⟩
  | .pad => ⟨"PAD", 0x3000#16, 0xFFFF#16⟩
  | .sum => ⟨"SUM", 0x4000#16, 0xFFFF#16⟩

/-- The word whose low `nbits` bits are those of `w` and whose other bits are 0: a command is exactly 16 bits (30_encoding.md R68),
so bits of `w` from 16 on belong to no command and are dropped (log entry 13). -/
def tableWord (nbits w : Nat) : CommandWord := BitVec.ofNat 16 (w % 2 ^ nbits)

/-- What the decoder reads from an opcode-table word; `none` where it rejects. -/
def decodeTableWord (nbits w : Nat) : Option Instr :=
  match decode (tableWord nbits w) with
  | .ok i => some i
  | .error _ => none

end Sys2Proof
end

