-- ==== Sys2Proof/Config.lean ====
section
/-! DEFINITION. The implementation parameters the spec fixes (00_scope.md R4 to R7; log entry 9) and the free values of
what it leaves unspecified (70_reset_and_hazards.md R152; log entry 4). -/

namespace Sys2Proof.Config

/-- FILLER, the ASCII character 'X': hardwired, the same for widths 16 and 32 (00_scope.md R5). -/
def filler : Byte := 0x58#8

/-- MAXLEN = 2^32 - 4: the largest number of bytes, input plus filler, one run may sum (00_scope.md R7). -/
def maxLen : Length := 0xFFFFFFFC#32

/-- FREE VALUE (DESIGN CHOICE, log entry 4). K where WSEL holds 3, which only a power-on state before the first reset can hold:
the spec gives it no meaning (70_reset_and_hazards.md R152), so nothing constrains this number. -/
opaque reservedAlignment : Nat

/-- FREE VALUE (DESIGN CHOICE, log entry 4). W where WSEL holds 3: as `reservedAlignment`. -/
opaque reservedWidth : Nat

end Sys2Proof.Config
end

