-- ==== Sys2Proof/Machine/Modes.lean ====
section
/-! DEFINITION. The codes the registers MODE and ERR hold (10_state.md R21, R25; 60_exceptions.md R120). -/

namespace Sys2Proof.Machine

/-- The register MODE, 3 bits, shown in STATUS[2:0] (10_state.md R21, R30). -/
abbrev Mode := BitVec 3

/-- After reset; no run started (10_state.md R21). -/
abbrev Mode.idle : Mode := 0#3

/-- A run is open; input bytes are accepted (10_state.md R21). -/
abbrev Mode.accum : Mode := 1#3

/-- PAD has been executed; input is closed (10_state.md R21). -/
abbrev Mode.padded : Mode := 2#3

/-- SUM succeeded; VALUE and LENGTH hold the result (10_state.md R21). -/
abbrev Mode.done : Mode := 3#3

/-- A fault was raised; every command is ignored until reset (10_state.md R21). -/
abbrev Mode.err : Mode := 4#3

/-- The register WSEL, 2 bits (10_state.md R22). -/
abbrev Selector := BitVec 2

/-- The register ERR, 3 bits, shown in STATUS[6:4] (10_state.md R25, R30). -/
abbrev ErrCode := BitVec 3

/-- The five faults of the engine (60_exceptions.md R120). Raising one is a step of the engine like any other (R126): these are not the
reasons for which the model stops. -/
inductive FaultCode where
  | illegalCommand
  | protocol
  | invalidWidth
  | lengthOverflow
  | alignment
deriving DecidableEq, Repr

/-- The code ERR records (60_exceptions.md R120); 0 stands for no fault, 6 and 7 are never raised. -/
def FaultCode.code (f : FaultCode) : ErrCode :=
  match f with
  | .illegalCommand => 1#3
  | .protocol => 2#3
  | .invalidWidth => 3#3
  | .lengthOverflow => 4#3
  | .alignment => 5#3

end Sys2Proof.Machine
end

