-- ==== Sys2Proof/Machine/State.lean ====
section
/-! DEFINITION. The state of the machine: the engine's seven registers (10_state.md R20) and what the host presents next; the state
after reset; the reasons for which a step stops. -/

namespace Sys2Proof.Machine

/-- One move of the host (00_scope.md R8; 30_encoding.md R61; 70_reset_and_hazards.md R151, R163; log entries 1, 6, 7). -/
inductive HostMove where
  /-- One command word on the command port. -/
  | command (cw : CommandWord)
  /-- The reset input is asserted. -/
  | reset
  /-- Nothing is presented (a port may be read meanwhile). -/
  | idle
  /-- Reset and a command word at once: reset wins (R151). -/
  | resetWithCommand (cw : CommandWord)
  /-- Two sources drive the port at once, which the spec does not model (R163). -/
  | twoDrivers (first second : CommandWord)
deriving DecidableEq, Repr

/-- The reasons for which the machine stops. The engine's own five faults are no stops: they are next states (60_exceptions.md R126). -/
inductive Fault where
  /-- Raised by a step that takes the move `twoDrivers`: the spec assumes the host never drives the port from two sources and gives no
  effect (70_reset_and_hazards.md R163; 93_implementation_defined.md V2 "refuse, not modelled"). SAFE: the model stops where a
  real engine would do something unknown (log entry 7). -/
  | portContention
deriving DecidableEq, Repr

/-- The reasons for which an instruction has no meaning. -/
inductive Refusal where
  /-- Raised by a rejected arm of `exec` only. No arm is rejected in this model. SAFE. -/
  | notModelled (mnemonic : String)
deriving DecidableEq, Repr

/-- The seven registers of the engine (10_state.md R20), each with its width, and the host's coming moves. -/
structure State where
  /-- MODE: where the run stands (R21). -/
  mode : Mode
  /-- WSEL: the selected width, 0 for 8-bit, 1 for 16-bit, 2 for 32-bit (R22). -/
  wsel : Selector
  /-- ACC: the running sum, hidden from the host (R23, R33). -/
  acc : Accumulator
  /-- LEN: the number of bytes summed so far in this run (R24). -/
  len : Length
  /-- ERR: the code of the first fault since reset (R25). -/
  err : ErrCode
  /-- VALUE: the checksum of the finished run (R26). -/
  value : Value
  /-- LENGTH: the padded length of the finished run (R27). -/
  length : Length
  /-- THE MODEL'S OWN (log entry 1): what the host presents, the next move first. The engine has no command queue (R61): this list
  is the host, not a part of the engine. -/
  host : List HostMove
deriving DecidableEq, Repr

/-- The state right after reset: every register 0 (10_state.md R35), nothing presented yet (log entry 1). -/
def State.reset : State :=
  { mode := 0#3, wsel := 0#2, acc := 0#64, len := 0#32, err := 0#3, value := 0#32, length := 0#32, host := [] }

end Sys2Proof.Machine
end

