-- ==== Sys2Proof/Machine/Operands.lean ====
section
/-! DEFINITION. The widths and what follows from them (00_scope.md R4), and the two operand forms of the commands: the width of INIT
and the byte of PUSH (30_encoding.md R62; 42_width_dispatch.md R110, R111). -/

namespace Sys2Proof

/-- W, the width in bits (00_scope.md R4). -/
def Width.bits (w : Width) : Nat :=
  match w with
  | .w8 => 8
  | .w16 => 16
  | .w32 => 32

/-- K = W / 8, the bytes of a word (00_scope.md R4). -/
def Width.alignment (w : Width) : Nat := w.bits / 8

/-- The stored selector (00_scope.md R4). -/
def Width.selector (w : Width) : Machine.Selector :=
  match w with
  | .w8 => 0#2
  | .w16 => 1#2
  | .w32 => 2#2

/-- INIT's operand for a width: the number of bits itself (42_width_dispatch.md R111). -/
def Width.operand (w : Width) : Byte := BitVec.ofNat 8 w.bits

end Sys2Proof

namespace Sys2Proof.Machine

/-- The width an INIT operand names, `none` for the 253 bytes that are no width (42_width_dispatch.md R112, R113). -/
def widthOfOperand (w : Byte) : Option Width :=
  if w = 8#8 then some .w8
  else if w = 16#8 then some .w16
  else if w = 32#8 then some .w32
  else none

/-- `zext_64(b)`: a pushed byte is unsigned and never sign-extended (41_checksum.md R93, R94). -/
def byteOperand (b : Byte) : Accumulator := b.setWidth 64

/-- `W = 8 << WSEL` (10_state.md R22). WSEL = 3 has no meaning in the spec and gives a free value (log entry 4). -/
def widthOf (sel : Selector) : Nat := if sel = 3#2 then Config.reservedWidth else 8 <<< sel.toNat

/-- `K = 1 << WSEL` (10_state.md R22). WSEL = 3 has no meaning in the spec and gives a free value (log entry 4). -/
def alignmentOf (sel : Selector) : Nat := if sel = 3#2 then Config.reservedAlignment else 1 <<< sel.toNat

/-- `MASK = 2^W - 1`, as wide as the accumulator (10_state.md R22; 41_checksum.md R99). -/
def maskOf (sel : Selector) : Accumulator := BitVec.ofNat 64 (2 ^ widthOf sel - 1)

end Sys2Proof.Machine
end

