-- ==== Sys2Proof/Machine/Ops.lean ====
section
/-! DEFINITION. The named operations on the registers that the commands share: the mode tests, the byte data path, the writes of each
command, fault entry and its only way back, reset. -/

namespace Sys2Proof.Machine

/-- Every command is ignored: MODE is ERR (60_exceptions.md R128). Codes 5 to 7, which only a power-on state can hold, act as ERR
(93_implementation_defined.md V1; DESIGN CHOICE, log entry 3). -/
def State.ignoresCommands (s : State) : Bool := Mode.err ≤ s.mode

/-- No run is open: INIT is legal (60_exceptions.md R122). -/
def State.betweenRuns (s : State) : Bool := s.mode = Mode.idle || s.mode = Mode.done

/-- A run is open: PAD and SUM are legal (60_exceptions.md R122). -/
def State.runOpen (s : State) : Bool := s.mode = Mode.accum || s.mode = Mode.padded

/-- K of the selected width (00_scope.md R11). -/
def State.alignment (s : State) : Nat := alignmentOf s.wsel

/-- `LEN mod K`: the lane the next byte takes (10_state.md R24). -/
def State.phase (s : State) : Nat := s.len.toNat % s.alignment

/-- `sh = 8 * (K - 1 - (LEN mod K))` (41_checksum.md R93). -/
def State.laneShift (s : State) : Nat := 8 * (s.alignment - 1 - s.phase)

/-- `lane_add(b)`: the byte data path of PUSH and PAD (41_checksum.md R93). -/
def State.laneAdd (b : Byte) (s : State) : State :=
  { s with acc := s.acc + (byteOperand b <<< s.laneShift), len := s.len + 1#32 }

/-- `repeat n times: lane_add(0x58)`, each seeing the writes of the one before (40_pad.md R82). -/
def State.fill : Nat → State → State
  | 0, s => s
  | n + 1, s => State.fill n (s.laneAdd Config.filler)

/-- `p = (K - (LEN mod K)) mod K` (40_pad.md R82). -/
def State.padAmount (s : State) : Nat := (s.alignment - s.phase) % s.alignment

/-- `raise F` in a mode other than ERR: MODE and ERR are written, nothing else changes (60_exceptions.md R126). -/
def State.raise (f : FaultCode) (s : State) : State := { s with mode := Mode.err, err := f.code }

/-- The reset input: all seven registers are written, in any mode; the only way out of ERR (70_reset_and_hazards.md R150;
60_exceptions.md R128). The host's coming moves are the host's. -/
def State.clear (s : State) : State := { State.reset with host := s.host }

/-- INIT's writes for a valid width (42_width_dispatch.md R112). -/
def State.beginRun (sel : Selector) (s : State) : State :=
  { s with mode := Mode.accum, wsel := sel, acc := 0#64, len := 0#32, value := 0#32, length := 0#32 }

/-- PAD's last write (40_pad.md R82). -/
def State.closeInput (s : State) : State := { s with mode := Mode.padded }

/-- `zext_32(ACC & MASK)` (41_checksum.md R97, R99). -/
def State.maskedSum (s : State) : Value := (s.acc &&& maskOf s.wsel).setWidth 32

/-- SUM's writes (41_checksum.md R97). -/
def State.publish (s : State) : State := { s with mode := Mode.done, value := s.maskedSum, length := s.len }

/-- The host will present these command words next, in this order, before what it was to present (log entry 1). -/
def State.present (cws : List CommandWord) (s : State) : State := { s with host := cws.map .command ++ s.host }

end Sys2Proof.Machine
end

