-- ==== Sys2Proof/Machine/Flags.lean ====
section
/-! DEFINITION. The one flag, ALIGNED, and the four read-only output ports, each a function of the registers (10_state.md R30 to R32;
log entry 16). -/

namespace Sys2Proof.Machine

/-- ALIGNED: `LEN mod K = 0`, computed in every mode from whatever LEN and WSEL hold (10_state.md R30). -/
def State.aligned (s : State) : Bool := s.phase == 0

/-- STATUS: bit 7 zero, 6:4 ERR, 3 ALIGNED, 2:0 MODE (10_state.md R30). -/
def State.statusPort (s : State) : BitVec 8 := 0#1 ++ s.err ++ BitVec.ofBool s.aligned ++ s.mode

/-- WIDTH: `W = 8 << WSEL` in 6 bits (10_state.md R31). -/
def State.widthPort (s : State) : BitVec 6 := BitVec.ofNat 6 (widthOf s.wsel)

/-- VALUE (10_state.md R32). -/
def State.valuePort (s : State) : BitVec 32 := s.value

/-- LENGTH (10_state.md R32). -/
def State.lengthPort (s : State) : BitVec 32 := s.length

/-- What the host can read (10_state.md R33: ACC and LEN are hidden). -/
structure Ports where
  status : BitVec 8
  width : BitVec 6
  value : BitVec 32
  length : BitVec 32
deriving DecidableEq, Repr

/-- The four ports of a state. Reading them changes nothing (20_memory.md R48). -/
def State.ports (s : State) : Ports := ⟨s.statusPort, s.widthPort, s.valuePort, s.lengthPort⟩

/-- The source's ChecksumResult: the pair (VALUE, LENGTH), and only while STATUS[2:0] reads DONE (10_state.md R32;
42_width_dispatch.md R116; 70_reset_and_hazards.md R160). -/
def Ports.result (p : Ports) : Option (BitVec 32 × BitVec 32) :=
  if p.status.extractLsb' 0 3 = Mode.done then some (p.value, p.length) else none

end Sys2Proof.Machine
end

