-- ==== Sys2Proof/Machine/Checksum.lean ====
section
/-! DEFINITION. The commands PUSH (41_checksum.md R92) and SUM (41_checksum.md R97). -/

namespace Sys2Proof.Machine

/-- `PUSH b`: in ERR nothing; not ACCUM raises Protocol; LEN at MAXLEN raises LengthOverflow; else the byte is added
(41_checksum.md R92, R95). -/
def execPush (b : Byte) (s : State) : Host.Outcome State Fault Refusal :=
  if s.ignoresCommands then .next s
  else if s.mode ≠ Mode.accum then .next (s.raise .protocol)
  else if Config.maxLen ≤ s.len then .next (s.raise .lengthOverflow)
  else .next (s.laneAdd b)

/-- `SUM`: in ERR nothing; no open run raises Protocol; a misaligned length raises Alignment; else the masked sum and the length are
published (41_checksum.md R97, R98). -/
def execSum (s : State) : Host.Outcome State Fault Refusal :=
  if s.ignoresCommands then .next s
  else if !s.runOpen then .next (s.raise .protocol)
  else if !s.aligned then .next (s.raise .alignment)
  else .next s.publish

end Sys2Proof.Machine
end

