-- ==== Sys2Proof/Machine/Init.lean ====
section
/-! DEFINITION. The command INIT (42_width_dispatch.md R112, R113). -/

namespace Sys2Proof.Machine

/-- `INIT w`: in ERR nothing; a run open raises Protocol; no width raises InvalidWidth; else a fresh run (42_width_dispatch.md R112). -/
def execInit (w : Byte) (s : State) : Host.Outcome State Fault Refusal :=
  if s.ignoresCommands then .next s
  else if !s.betweenRuns then .next (s.raise .protocol)
  else
    match widthOfOperand w with
    | none => .next (s.raise .invalidWidth)
    | some width => .next (s.beginRun width.selector)

end Sys2Proof.Machine
end

