-- ==== Sys2Proof/Machine/Pad.lean ====
section
/-! DEFINITION. The command PAD (40_pad.md R82). -/

namespace Sys2Proof.Machine

/-- `PAD`: in ERR nothing; no open run raises Protocol; else the filler bytes are added and the input is closed (40_pad.md R82). -/
def execPad (s : State) : Host.Outcome State Fault Refusal :=
  if s.ignoresCommands then .next s
  else if !s.runOpen then .next (s.raise .protocol)
  else .next (State.fill s.padAmount s).closeInput

end Sys2Proof.Machine
end

