-- ==== Sys2Proof/Machine/Dispatch.lean ====
section
/-! DEFINITION. One arm per command. -/

namespace Sys2Proof.Machine

def exec (i : Instr) (s : State) : Host.Outcome State Fault Refusal :=
  match i with
  | .init w => Sys2Proof.Machine.execInit w s
  | .push b => Sys2Proof.Machine.execPush b s
  | .pad => Sys2Proof.Machine.execPad s
  | .sum => Sys2Proof.Machine.execSum s

end Sys2Proof.Machine
end

