-- ==== Sys2Proof/Machine/Port.lean ====
section
/-! DEFINITION. What the engine does with a move of the host: a command word is decoded and executed, an illegal word raises
IllegalCommand, the reset input clears the registers (30_encoding.md R61; 60_exceptions.md R121; 70_reset_and_hazards.md R150). -/

namespace Sys2Proof.Machine

/-- A word the decoder rejects: ignored in ERR, else IllegalCommand (60_exceptions.md R121, R128, R129). -/
def execIllegal (s : State) : Host.Outcome State Fault Refusal :=
  if s.ignoresCommands then .next s else .next (s.raise .illegalCommand)

/-- One command word on the command port (60_exceptions.md R140). -/
def runWord (cw : CommandWord) (s : State) : Host.Outcome State Fault Refusal :=
  match decode cw with
  | .ok i => exec i s
  | .error _ => execIllegal s

/-- The engine's answer to one move of the host (70_reset_and_hazards.md R163; log entries 6, 7). -/
def perform (m : HostMove) (s : State) : Host.Outcome State Fault Refusal :=
  match m with
  | .command cw => runWord cw s
  | .reset => .next s.clear
  | .idle => .next s
  | .resetWithCommand _ => .next s.clear
  | .twoDrivers _ _ => .fault .portContention

end Sys2Proof.Machine
end

