-- ==== Sys2Proof/Machine/Step.lean ====
section
/-! DEFINITION. One step: the engine takes the host's next move; when the host presents nothing, its state does not change
(00_scope.md R9; 30_encoding.md R61; log entries 1, 2). -/

namespace Sys2Proof.Machine

/-- One step of the machine. -/
def step (s : State) : Host.Outcome State Fault Refusal :=
  match s.host with
  | [] => .next s
  | m :: rest => perform m { s with host := rest }

/-- The host presents this word next: the engine stores no program and fetches nothing (10_state.md R28), so a word comes to run by
being presented on the command port (log entry 1). -/
def State.withFetchWord (s : State) (nbits w : Nat) : State :=
  { s with host := .command (tableWord nbits w) :: s.host }

end Sys2Proof.Machine
end

