-- ==== Sys2Proof/Machine/Assembler.lean ====
section
/-! DEFINITION. The spec's assembler: lines to command words (30_encoding.md R69, R70) and text to lines (R69; log entry 14). The engine
never sees it: what reaches the command port are the words. -/

namespace Sys2Proof.Machine.Assembler

/-- `0x2000 | b` for a character's code (30_encoding.md R69). -/
def pushWord (c : Char) : CommandWord := encode (.push (BitVec.ofNat 8 c.toNat))

/-- The words of a well-formed line; pseudo-instructions are expanded (30_encoding.md R69, R70). -/
def expand (l : AsmLine) : List CommandWord :=
  match l with
  | .init w => [encode (.init (BitVec.ofNat 8 w))]
  | .push b => [encode (.push (BitVec.ofNat 8 b))]
  | .pushChar c => [pushWord c]
  | .pad => [encode .pad]
  | .sum => [encode .sum]
  | .word v => [BitVec.ofNat 16 v]
  | .fin => [encode .pad, encode .sum]
  | .pushs text => text.map pushWord
  | .run w text => encode (.init (BitVec.ofNat 8 w)) :: (text.map pushWord ++ [encode .pad, encode .sum])

/-- The words of a line, `none` where the assembler does not take it (30_encoding.md R69). -/
def assemble (l : AsmLine) : Option (List CommandWord) := if l.wellFormed then some (expand l) else none

/-- A space or a tab. -/
def blank (c : Char) : Bool := c = ' ' || c = '\t'

/-- The text after its leading blanks. -/
def skipBlanks (text : List Char) : List Char := text.dropWhile blank

/-- A line ends in nothing or in a comment that starts with `;` (30_encoding.md R69). -/
def lineEnds (text : List Char) : Bool :=
  match skipBlanks text with
  | [] => true
  | c :: _ => c = ';'

/-- The value of a digit in base 10 or 16. -/
def digitValue (base : Nat) (c : Char) : Option Nat :=
  let v :=
    if '0' ≤ c ∧ c ≤ '9' then some (c.toNat - '0'.toNat)
    else if 'a' ≤ c ∧ c ≤ 'f' then some (c.toNat - 'a'.toNat + 10)
    else if 'A' ≤ c ∧ c ≤ 'F' then some (c.toNat - 'A'.toNat + 10)
    else none
  v.filter (· < base)

/-- The digits at the start of the text, added to the number read so far, and the rest. -/
def digits (base : Nat) (sofar : Nat) : List Char → Nat × List Char
  | [] => (sofar, [])
  | c :: rest =>
    match digitValue base c with
    | some v => digits base (sofar * base + v) rest
    | none => (sofar, c :: rest)

/-- A number has at least one digit. -/
def someDigits (base : Nat) (text : List Char) : Option (Nat × List Char) :=
  match text with
  | [] => none
  | c :: _ => if (digitValue base c).isSome then some (digits base 0 text) else none

/-- A decimal or `0x` hexadecimal number (30_encoding.md R69). -/
def number (text : List Char) : Option (Nat × List Char) :=
  match text with
  | '0' :: 'x' :: rest => someDigits 16 rest
  | text => someDigits 10 text

/-- A quoted text and the rest after its closing quote (30_encoding.md R70). -/
def quoted : List Char → Option (List Char × List Char)
  | [] => none
  | '"' :: rest => some ([], rest)
  | c :: rest => (quoted rest).map fun (text, after) => (c :: text, after)

/-- A line that is one number after its mnemonic. -/
def numberLine (make : Nat → AsmLine) (text : List Char) : Option AsmLine :=
  (number (skipBlanks text)).bind fun (n, rest) => if lineEnds rest then some (make n) else none

/-- The operand of PUSH: a number or a quoted character (30_encoding.md R69). -/
def pushLine (text : List Char) : Option AsmLine :=
  match skipBlanks text with
  | '\'' :: c :: '\'' :: rest => if lineEnds rest then some (.pushChar c) else none
  | text => numberLine .push text

/-- The operand of PUSHS: a quoted text (30_encoding.md R70). -/
def pushsLine (text : List Char) : Option AsmLine :=
  match skipBlanks text with
  | '"' :: rest => (quoted rest).bind fun (t, after) => if lineEnds after then some (.pushs t) else none
  | _ => none

/-- The operands of RUN: a number, a comma, a quoted text (30_encoding.md R70; the form of the number is log entry 14). -/
def runLine (text : List Char) : Option AsmLine :=
  (number (skipBlanks text)).bind fun (w, rest) =>
    match skipBlanks rest with
    | ',' :: rest =>
      match skipBlanks rest with
      | '"' :: rest => (quoted rest).bind fun (t, after) => if lineEnds after then some (.run w t) else none
      | _ => none
    | _ => none

/-- A line with no operand. -/
def bareLine (l : AsmLine) (rest : List Char) : Option AsmLine := if lineEnds rest then some l else none

/-- The mnemonic at the start of the text (letters and a dot) and the rest. -/
def mnemonic (text : List Char) : List Char × List Char :=
  text.span fun c => c.isAlpha || c = '.'

/-- One line of text that is not blank (30_encoding.md R69, R70). DESIGN CHOICE (log entry 14), safe: the spec does not say whether a blank must
stand between the mnemonic and its operand, and here none need, so `INIT16` reads as `INIT 16`. -/
def parseLine (text : List Char) : Option AsmLine :=
  match mnemonic (skipBlanks text) with
  | (['I', 'N', 'I', 'T'], rest) => numberLine .init rest
  | (['P', 'U', 'S', 'H'], rest) => pushLine rest
  | (['P', 'A', 'D'], rest) => bareLine .pad rest
  | (['S', 'U', 'M'], rest) => bareLine .sum rest
  | (['.', 'w', 'o', 'r', 'd'], rest) => numberLine .word rest
  | (['F', 'I', 'N'], rest) => bareLine .fin rest
  | (['P', 'U', 'S', 'H', 'S'], rest) => pushsLine rest
  | (['R', 'U', 'N'], rest) => runLine rest
  | _ => none

/-- The words of a list of lines; a blank or comment line has none (30_encoding.md R69). -/
def assembleLines : List (List Char) → Option (List CommandWord)
  | [] => some []
  | line :: rest =>
    if lineEnds line then assembleLines rest
    else (parseLine line).bind fun l => (assemble l).bind fun ws => (assembleLines rest).map (ws ++ ·)

/-- The lines of a text, "one command per line" (30_encoding.md R69). -/
def splitLines (sofar : List Char) : List Char → List (List Char)
  | [] => [sofar.reverse]
  | '\n' :: rest => sofar.reverse :: splitLines [] rest
  | c :: rest => splitLines (c :: sofar) rest

/-- The words of a text. -/
def assembleText (text : List Char) : Option (List CommandWord) := assembleLines (splitLines [] text)

end Sys2Proof.Machine.Assembler
end

