-- ==== Sys2Proof/Machine/Consolidated.lean ====
section
/-! DEFINITION. The step function in one place, written from 60_exceptions.md R140 in natural-number arithmetic. The machine does not
use it: it is a second design the commands' meanings are proved equal to. -/

namespace Sys2Proof.Machine.Consolidated

/-- `fault(s, c) = s with MODE = ERR, ERR = c` (60_exceptions.md R140). -/
def faultWith (s : State) (c : Nat) : State := { s with mode := 4#3, err := BitVec.ofNat 3 c }

/-- K, as a number. -/
def k (s : State) : Nat := alignmentOf s.wsel

/-- `lane_add(s, b)` (60_exceptions.md R140). -/
def laneAdd (s : State) (b : Nat) : State :=
  { s with
    acc := BitVec.ofNat 64 ((s.acc.toNat + b * 2 ^ (8 * (k s - 1 - s.len.toNat % k s))) % 2 ^ 64)
    len := BitVec.ofNat 32 (s.len.toNat + 1) }

/-- The command step (60_exceptions.md R140); MODE codes from 4 on are ERR (log entry 3). -/
def commandStep (s : State) (cw : CommandWord) : State :=
  if 4 ≤ s.mode.toNat then s
  else
    match decode cw with
    | .error _ => faultWith s 1
    | .ok (.init w) =>
      if ¬ (s.mode.toNat = 0 ∨ s.mode.toNat = 3) then faultWith s 2
      else if ¬ (w.toNat = 8 ∨ w.toNat = 16 ∨ w.toNat = 32) then faultWith s 3
      else { s with wsel := BitVec.ofNat 2 (Nat.log2 (w.toNat / 8)), acc := 0, len := 0, value := 0, length := 0, mode := 1#3 }
    | .ok (.push b) =>
      if s.mode.toNat ≠ 1 then faultWith s 2
      else if s.len.toNat ≥ 2 ^ 32 - 4 then faultWith s 4
      else laneAdd s b.toNat
    | .ok .pad =>
      if ¬ (s.mode.toNat = 1 ∨ s.mode.toNat = 2) then faultWith s 2
      else { (fun t => laneAdd t 0x58)^[(k s - s.len.toNat % k s) % k s] s with mode := 2#3 }
    | .ok .sum =>
      if ¬ (s.mode.toNat = 1 ∨ s.mode.toNat = 2) then faultWith s 2
      else if s.len.toNat % k s ≠ 0 then faultWith s 5
      else { s with value := BitVec.ofNat 32 (s.acc &&& maskOf s.wsel).toNat, length := s.len, mode := 3#3 }

end Sys2Proof.Machine.Consolidated
end

