-- ==== Sys2Proof/Machine/ModeTable.lean ====
section
/-! DEFINITION. The complete transition table of the mode machine, transcribed cell by cell from 60_exceptions.md R138. The machine does
not use it: it is the second design the commands' meanings are held to. -/

namespace Sys2Proof.Machine

/-- The table's columns (60_exceptions.md R138). -/
inductive ModeEvent where
  | illegal
  | initValid
  | initInvalid
  | pushRoom
  | pushFull
  | pad
  | sumAligned
  | sumMisaligned
  | reset
deriving DecidableEq, Repr

/-- A cell of the table (60_exceptions.md R138). -/
inductive ModeCell where
  /-- The next MODE, with no fault. -/
  | goes (next : Mode)
  /-- `MODE <- ERR` with this fault's code. -/
  | faults (f : FaultCode)
  /-- "ERR (ignored)". -/
  | ignored
deriving DecidableEq, Repr

/-- The column a command word falls under in a state (60_exceptions.md R138). -/
def modeEvent (cw : CommandWord) (s : State) : ModeEvent :=
  match decode cw with
  | .error _ => .illegal
  | .ok (.init w) => if w = 8#8 ∨ w = 16#8 ∨ w = 32#8 then .initValid else .initInvalid
  | .ok (.push _) => if s.len < Config.maxLen then .pushRoom else .pushFull
  | .ok .pad => .pad
  | .ok .sum => if s.len.toNat % alignmentOf s.wsel = 0 then .sumAligned else .sumMisaligned

/-- The row IDLE (60_exceptions.md R138). -/
def idleRow (e : ModeEvent) : ModeCell :=
  match e with
  | .illegal => .faults .illegalCommand
  | .initValid => .goes Mode.accum
  | .initInvalid => .faults .invalidWidth
  | .pushRoom => .faults .protocol
  | .pushFull => .faults .protocol
  | .pad => .faults .protocol
  | .sumAligned => .faults .protocol
  | .sumMisaligned => .faults .protocol
  | .reset => .goes Mode.idle

/-- The row ACCUM (60_exceptions.md R138). -/
def accumRow (e : ModeEvent) : ModeCell :=
  match e with
  | .illegal => .faults .illegalCommand
  | .initValid => .faults .protocol
  | .initInvalid => .faults .protocol
  | .pushRoom => .goes Mode.accum
  | .pushFull => .faults .lengthOverflow
  | .pad => .goes Mode.padded
  | .sumAligned => .goes Mode.done
  | .sumMisaligned => .faults .alignment
  | .reset => .goes Mode.idle

/-- The row PADDED; its misaligned cell is written as Alignment, as R138 asks, so that the function is total (60_exceptions.md R138). -/
def paddedRow (e : ModeEvent) : ModeCell :=
  match e with
  | .illegal => .faults .illegalCommand
  | .initValid => .faults .protocol
  | .initInvalid => .faults .protocol
  | .pushRoom => .faults .protocol
  | .pushFull => .faults .protocol
  | .pad => .goes Mode.padded
  | .sumAligned => .goes Mode.done
  | .sumMisaligned => .faults .alignment
  | .reset => .goes Mode.idle

/-- The row DONE (60_exceptions.md R138). -/
def doneRow (e : ModeEvent) : ModeCell :=
  match e with
  | .illegal => .faults .illegalCommand
  | .initValid => .goes Mode.accum
  | .initInvalid => .faults .invalidWidth
  | .pushRoom => .faults .protocol
  | .pushFull => .faults .protocol
  | .pad => .faults .protocol
  | .sumAligned => .faults .protocol
  | .sumMisaligned => .faults .protocol
  | .reset => .goes Mode.idle

/-- The row ERR (60_exceptions.md R138). -/
def errRow (e : ModeEvent) : ModeCell :=
  match e with
  | .illegal => .ignored
  | .initValid => .ignored
  | .initInvalid => .ignored
  | .pushRoom => .ignored
  | .pushFull => .ignored
  | .pad => .ignored
  | .sumAligned => .ignored
  | .sumMisaligned => .ignored
  | .reset => .goes Mode.idle

/-- The table (60_exceptions.md R138); codes 5 to 7, which have no row, act as ERR (log entry 3). -/
def modeTable (mode : Mode) (e : ModeEvent) : ModeCell :=
  if mode = Mode.idle then idleRow e
  else if mode = Mode.accum then accumRow e
  else if mode = Mode.padded then paddedRow e
  else if mode = Mode.done then doneRow e
  else errRow e

/-- MODE after a cell. -/
def ModeCell.modeAfter (c : ModeCell) (before : Mode) : Mode :=
  match c with
  | .goes next => next
  | .faults _ => Mode.err
  | .ignored => before

/-- ERR after a cell: only a fault writes it (60_exceptions.md R126; reset is not asked of this function). -/
def ModeCell.errAfter (c : ModeCell) (before : ErrCode) : ErrCode :=
  match c with
  | .goes _ => before
  | .faults f => f.code
  | .ignored => before

end Sys2Proof.Machine
end

