-- ==== Sys2Proof/Machine/Reference.lean ====
section
/-! DEFINITION. The two pure functions on byte sequences that carry the source's meaning and that the commands are held to: `pad`
(40_pad.md R80) and `checksum` (41_checksum.md R90). The machine does not use them. -/

namespace Sys2Proof.Machine.Reference

/-- Filler bytes up to a multiple of `k`: `padAmount = (k - (len(B) mod k)) mod k` (40_pad.md R80). -/
def padTo (k : Nat) (bytes : List Byte) : List Byte :=
  bytes ++ List.replicate ((k - bytes.length % k) % k) Config.filler

/-- `pad(B, w)` (40_pad.md R80). -/
def pad (bytes : List Byte) (w : Width) : List Byte := padTo w.alignment bytes

/-- A group of bytes read as one big-endian number: the first byte is the most significant (20_memory.md R43). -/
def bigEndian (bytes : List Byte) : Nat := bytes.foldl (fun sofar b => sofar * 256 + b.toNat) 0

/-- The sum of the first `n` words of `k` bytes each (41_checksum.md R90). -/
def wordSum (k : Nat) : Nat → List Byte → Nat
  | 0, _ => 0
  | n + 1, bytes => bigEndian (bytes.take k) + wordSum k n (bytes.drop k)

/-- `checksum(B, w)`: the sum of the words modulo 2^w; `none` is the source's AlignmentError (41_checksum.md R90, R98). -/
def checksum (bytes : List Byte) (w : Width) : Option Nat :=
  if bytes.length % w.alignment = 0 then
    some (wordSum w.alignment (bytes.length / w.alignment) bytes % 2 ^ w.bits)
  else none

end Sys2Proof.Machine.Reference
end

