-- ==== Sys2Proof/Machine/Ghost.lean ====
section
/-! DEFINITION. The ghost buffer BUF: all bytes the data path has consumed since the last INIT, pushed bytes and then filler bytes. It
is a variable for stating properties, computed beside the machine and held nowhere in State (00_scope.md R12; log entry 11). -/

namespace Sys2Proof.Machine

/-- The command is executed with its own effect: neither ignored nor turned into a fault (60_exceptions.md R122, R129, R138). -/
def State.accepts (i : Instr) (s : State) : Bool :=
  match i with
  | .init w => s.betweenRuns && (widthOfOperand w).isSome
  | .push _ => decide (s.mode = Mode.accum) && decide (s.len < Config.maxLen)
  | .pad => s.runOpen
  | .sum => s.runOpen && s.aligned

/-- The command's effect on BUF: INIT empties it (42_width_dispatch.md R112), PUSH appends its byte (41_checksum.md R92), PAD pads it
(40_pad.md R82), SUM leaves it; a command that is ignored or faults leaves it. -/
def ghostExec (i : Instr) (s : State) (buf : List Byte) : List Byte :=
  if s.accepts i then
    match i with
    | .init _ => []
    | .push b => buf ++ [b]
    | .pad => Reference.padTo s.alignment buf
    | .sum => buf
  else buf

/-- The effect of a move of the host on BUF; reset empties it (10_state.md R34). -/
def ghostPerform (m : HostMove) (s : State) (buf : List Byte) : List Byte :=
  match m with
  | .command cw =>
    match decode cw with
    | .ok i => ghostExec i s buf
    | .error _ => buf
  | .reset => []
  | .idle => buf
  | .resetWithCommand _ => []
  | .twoDrivers _ _ => buf

/-- BUF after the step the machine takes from `s`. -/
def ghostStep (s : State) (buf : List Byte) : List Byte :=
  match s.host with
  | [] => buf
  | m :: _ => ghostPerform m s buf

/-- The sum of `byte[i] * 2^(8 * (K - 1 - (i mod K)))`, the first byte having index `i` (10_state.md R34 item 2; 20_memory.md R43). -/
def laneSumFrom (k : Nat) : Nat → List Byte → Nat
  | _, [] => 0
  | i, b :: rest => b.toNat * 2 ^ (8 * (k - 1 - i % k)) + laneSumFrom k (i + 1) rest

/-- The lane sum of a whole buffer, whose first byte has index 0 (10_state.md R34 item 2). -/
def laneSum (k : Nat) (buf : List Byte) : Nat := laneSumFrom k 0 buf

end Sys2Proof.Machine
end

