-- ==== Sys2Proof/Safety.lean ====
section
/-! DEFINITION. What the claims call a legal state, a state that represents a buffer, and a legal run. -/

namespace Sys2Proof.Machine

/-- The invariants of 10_state.md R34 (items 4 to 8 and the bound of item 1) and R26, R32 that need no ghost buffer: they hold in the
reset state and every step keeps them. -/
structure Legal (s : State) : Prop where
  /-- R34 item 8. -/
  mode_le : s.mode.toNat ≤ 4
  /-- R34 item 8. -/
  wsel_le : s.wsel.toNat ≤ 2
  /-- R34 item 8. -/
  err_le : s.err.toNat ≤ 5
  /-- R34 item 7. -/
  err_iff : s.mode = Mode.err ↔ s.err ≠ 0#3
  /-- R34 item 1. -/
  len_le : s.len.toNat ≤ 0xFFFFFFFC
  /-- R26: VALUE is always below 2^W. -/
  value_lt : s.value.toNat < 2 ^ widthOf s.wsel
  /-- R34 item 4. -/
  padded_aligned : s.mode = Mode.padded → s.len.toNat % alignmentOf s.wsel = 0
  /-- R34 item 5. -/
  done_aligned : s.mode = Mode.done → s.len.toNat % alignmentOf s.wsel = 0
  /-- R34 item 5. -/
  done_length : s.mode = Mode.done → s.length = s.len
  /-- R34 item 5 with R26: VALUE is the accumulator's low W bits. -/
  done_value : s.mode = Mode.done → s.value.toNat = s.acc.toNat % 2 ^ widthOf s.wsel
  /-- R32: VALUE and LENGTH read 0 in IDLE, ACCUM and PADDED. -/
  no_result : s.mode.toNat ≤ 2 → s.value = 0#32 ∧ s.length = 0#32
  /-- R34: in IDLE everything is zero. -/
  idle_zero : s.mode = Mode.idle → s.wsel = 0#2 ∧ s.acc = 0#64 ∧ s.len = 0#32

/-- A legal state whose LEN and ACC are those of the ghost buffer (10_state.md R34 items 1 and 2), the accumulator as an exact number:
no wrap. -/
structure Represents (s : State) (buf : List Byte) : Prop where
  legal : Legal s
  len_eq : s.len.toNat = buf.length
  acc_eq : s.acc.toNat = laneSum (alignmentOf s.wsel) buf

/-- The words of one run over the bytes: INIT, one PUSH a byte, then `finish` (70_reset_and_hazards.md R154). -/
def runCommands (w : Width) (bytes : List Byte) (finish : List Instr) : List Instr :=
  .init w.operand :: (bytes.map .push ++ finish)

/-- The grammar `run ::= INIT w push* finish` (70_reset_and_hazards.md R154). -/
def IsRun (cmds : List Instr) : Prop :=
  ∃ (w : Width) (bytes : List Byte) (finish : List Instr),
    bytes.length ≤ 0xFFFFFFFC ∧
    ((finish = [.sum] ∧ bytes.length % w.alignment = 0) ∨
      ∃ n, finish = .pad :: (List.replicate n .pad ++ [.sum])) ∧
    cmds = runCommands w bytes finish

/-- A prefix of a concatenation of runs (70_reset_and_hazards.md R154). -/
def IsLegalSequence (cmds : List Instr) : Prop :=
  ∃ runs : List (List Instr), (∀ r ∈ runs, IsRun r) ∧ cmds <+: runs.flatten

/-- The machine after the host has presented these words, one a step. -/
def afterWords (cws : List CommandWord) (s : State) : Host.Outcome State Fault Refusal :=
  Host.Core.run Sys2Proof.core cws.length (s.present cws)

end Sys2Proof.Machine
end

