-- ==== Sys2Proof/Certificates/Slice0/Obligations.lean ====
section
/-! DEFINITION. The statements for the provers. Where a docstring says DERIVED, the spec marks the rule as its own inference, or the clause
rests on the log entry it names. -/

open Sys2Proof Sys2Proof.Machine Host

/-! ## Reset, the port and the step -/

/-- 10_state.md R35: reset leaves every register 0, and the ports read STATUS = 0x08, WIDTH = 8, VALUE = 0, LENGTH = 0. -/
def Obligations.ResetClearsEveryRegister : Prop :=
  State.reset.mode = 0#3 ∧ State.reset.wsel = 0#2 ∧ State.reset.acc = 0#64 ∧ State.reset.len = 0#32 ∧
  State.reset.err = 0#3 ∧ State.reset.value = 0#32 ∧ State.reset.length = 0#32 ∧
  State.reset.ports = ⟨0x08#8, 8#6, 0#32, 0#32⟩

/-- 70_reset_and_hazards.md R150: the reset input writes all seven registers to 0 from any state (a power-on state too, R152), the ports
then read as after reset, and it is the only way to leave ERR and the only way to abandon an open run. Without it ERR stays ERR, and a step from
an open run goes on with that run, ends it by SUM, or ends it by a fault that keeps its registers. Going on keeps WSEL and, from a legal state,
loses none of the LEN bytes, and PADDED does not turn back into ACCUM: no fresh run takes the open one's place (42_width_dispatch.md R112,
92_eei_decisions.md D11). -/
def Obligations.ResetInputClearsAndIsTheOnlyWayOut : Prop :=
  (∀ (s : State) (rest : List HostMove), s.host = .reset :: rest →
    ∃ t, step s = .next t ∧ t = { State.reset with host := rest } ∧ t.ports = ⟨0x08#8, 8#6, 0#32, 0#32⟩) ∧
  (∀ s t : State, step s = .next t → (∀ rest, s.host ≠ .reset :: rest) →
    (∀ cw rest, s.host ≠ .resetWithCommand cw :: rest) →
    (s.mode = Mode.err → t.mode = Mode.err) ∧
    (s.mode = Mode.accum ∨ s.mode = Mode.padded →
      ((t.mode = Mode.accum ∨ t.mode = Mode.padded) ∧ t.wsel = s.wsel ∧ (s.mode = Mode.padded → t.mode = Mode.padded) ∧
        (Legal s → s.len.toNat ≤ t.len.toNat)) ∨
      (t.mode = Mode.done ∧ ∃ rest, s.host = .command 0x4000#16 :: rest) ∨
      (t.mode = Mode.err ∧ t = { s with mode := t.mode, err := t.err, host := t.host })))

/-- 70_reset_and_hazards.md R151: reset may come at any step in any mode; with a command in the same step reset wins and the word is
discarded, whatever the host does next; the first command after either reset is executed against the reset state. -/
def Obligations.ResetWinsOverSimultaneousCommand : Prop :=
  (∀ (s : State) (cw : CommandWord) (rest : List HostMove), s.host = .resetWithCommand cw :: rest →
    step s = step { s with host := .reset :: rest } ∧ step s = .next { State.reset with host := rest }) ∧
  (∀ (s : State) (next : CommandWord) (rest : List HostMove),
    s.host = .reset :: .command next :: rest ∨ (∃ cw, s.host = .resetWithCommand cw :: .command next :: rest) →
    Core.run core 2 s = runWord next { State.reset with host := rest })

/-- A step runs the decoded command (30_encoding.md R61, R64; 60_exceptions.md R140): DERIVED. The word presented is consumed and `exec` of
the decoded command runs at the state with the host's other moves still to come. -/
def Obligations.StepRunsDecodedCommand : Prop :=
  ∀ (s : State) (cw : CommandWord) (rest : List HostMove) (i : Instr),
    s.host = .command cw :: rest → decode cw = .ok i → step s = exec i { s with host := rest }

/-- 30_encoding.md R61: "When the host presents nothing, the engine does nothing and its state does not change": DERIVED, since an empty list
of moves standing for a host that presents nothing is log entry 2. -/
def Obligations.SilentPortKeepsTheState : Prop :=
  (∀ s : State, s.host = [] → step s = .next s) ∧
  (∀ (s : State) (rest : List HostMove), s.host = .idle :: rest → step s = .next { s with host := rest })

/-- 60_exceptions.md R121: a word the decoder classes as Illegal raises IllegalCommand in IDLE, ACCUM, PADDED and DONE alike; 30_encoding.md
R66 names the words: `cw[11:8] != 0`, `op` 0 or 5 to 15, PAD or SUM with a non-zero `imm8`. -/
def Obligations.IllegalWordsRaiseIllegalCommand : Prop :=
  ∀ (s : State) (cw : CommandWord) (rest : List HostMove), s.host = .command cw :: rest → s.mode.toNat < 4 →
    (cw.toNat / 256 % 16 ≠ 0 ∨ cw.toNat / 4096 = 0 ∨ 5 ≤ cw.toNat / 4096 ∨
      ((cw.toNat / 4096 = 3 ∨ cw.toNat / 4096 = 4) ∧ cw.toNat % 256 ≠ 0)) →
    step s = .next { s with mode := 4#3, err := 1#3, host := rest }

/-- 70_reset_and_hazards.md R165, DERIVED by the spec from R140: the step is total, every command word in every state produces a next
state in one step, with the rest of the host's moves still to come. -/
def Obligations.EveryCommandWordTakesOneStep : Prop :=
  ∀ (s : State) (cw : CommandWord) (rest : List HostMove), s.host = .command cw :: rest →
    ∃ t, step s = .next t ∧ t.host = rest

/-- The MODEL'S CHOICE of log entry 7 (70_reset_and_hazards.md R163 gives no effect): two drivers on the port stop the machine, and nothing
else ever does. -/
def Obligations.OnlyPortContentionStops : Prop :=
  ∀ s : State, (step s = .fault .portContention ↔ ∃ a b rest, s.host = .twoDrivers a b :: rest) ∧
    ((∀ a b rest, s.host ≠ .twoDrivers a b :: rest) → ∃ t, step s = .next t)

/-- The MODEL'S CHOICE of log entry 3 (93_implementation_defined.md V1, a power-on state of R152): MODE codes 5 to 7 act as ERR, every
command word is ignored. -/
def Obligations.ReservedModesIgnoreCommands : Prop :=
  ∀ (s : State) (cw : CommandWord) (rest : List HostMove), s.host = .command cw :: rest → 5 ≤ s.mode.toNat →
    step s = .next { s with host := rest }

/-! ## Decoding and the assembler -/

/-- Words written out from the encodings of 30_encoding.md R63 and R69 decode to what they stand for: one word of each family at least, and
words of every illegal kind. The spec has one class Illegal (R64): the names under which the decoder rejects a word are the MODEL'S CHOICE of log
entry 12. -/
def Obligations.WrittenWordsDecode : Prop :=
  decode 0b0001000000010000#16 = .ok (.init 16#8) ∧ decode 0b0001000011111111#16 = .ok (.init 255#8) ∧
  decode 0b0010000001000001#16 = .ok (.push 0x41#8) ∧ decode 0b0010000000000000#16 = .ok (.push 0#8) ∧
  decode 0b0011000000000000#16 = .ok .pad ∧ decode 0b0100000000000000#16 = .ok .sum ∧
  decode 0b0010000101000001#16 = .error .reservedBits ∧ decode 0b0101000000000000#16 = .error .unassignedOpcode ∧
  decode 0b0011000000000001#16 = .error .nonzeroImmediate ∧ decode 0b0100000010000000#16 = .error .nonzeroImmediate

/-- Decode and encode agree on every well-formed command, with every operand (30_encoding.md R60, R63, R64). -/
def Obligations.DecodeOfEncodeIsTheCommand : Prop :=
  ∀ i : Instr, i.wellFormed = true → decode (encode i) = .ok i

/-- No word but its encoding decodes to a command: no aliases (30_encoding.md R63, R66). -/
def Obligations.EncodeOfDecodeIsTheWord : Prop :=
  ∀ (cw : CommandWord) (i : Instr), decode cw = .ok i → encode i = cw

/-- 30_encoding.md R63: a word is a command exactly when a row of the opcode table covers it by match and mask, it is that row's command, and
no two rows cover one word. -/
def Obligations.OpcodeTableAndDecoderAgree : Prop :=
  (∀ cw : CommandWord, (∃ i, decode cw = .ok i) ↔ ∃ r ∈ opcodeTable, r.covers cw = true) ∧
  (∀ (cw : CommandWord) (i : Instr), decode cw = .ok i → i.row ∈ opcodeTable ∧ i.row.covers cw = true) ∧
  (∀ cw : CommandWord, ∀ r ∈ opcodeTable, ∀ q ∈ opcodeTable, r.covers cw = true → q.covers cw = true → r = q)

/-- 30_encoding.md R65, DERIVED by the spec from R64: 256 words decode as INIT, 256 as PUSH, one as PAD, one as SUM, and 65,022 are Illegal. -/
def Obligations.EncodingCounts : Prop :=
  (Finset.univ.filter fun cw : CommandWord => ∃ w, decode cw = .ok (.init w)).card = 256 ∧
  (Finset.univ.filter fun cw : CommandWord => ∃ b, decode cw = .ok (.push b)).card = 256 ∧
  (Finset.univ.filter fun cw : CommandWord => decode cw = .ok .pad).card = 1 ∧
  (Finset.univ.filter fun cw : CommandWord => decode cw = .ok .sum).card = 1 ∧
  (Finset.univ.filter fun cw : CommandWord => isIllegal cw = true).card = 65022

/-- 30_encoding.md R69 and R70: the lines INIT and PUSH encode as `0x1000 | w` and `0x2000 | b` for every operand 0 to 255 and decode to their
command, PUSH of a quoted ASCII character as its code, PAD and SUM as 0x3000 and 0x4000, `.word v` as `v`; FIN is PAD and SUM, PUSHS one PUSH a
character (of no text nothing), RUN is INIT, PUSHS and FIN; and every word of a RUN line decodes to the command it stands for. -/
def Obligations.PseudoInstructionsExpand : Prop :=
  (∀ w < 256, Assembler.expand (.init w) = [0x1000#16 ||| BitVec.ofNat 16 w] ∧
    (Assembler.expand (.init w)).map decode = [.ok (.init (BitVec.ofNat 8 w))]) ∧
  (∀ b < 256, Assembler.expand (.push b) = [0x2000#16 ||| BitVec.ofNat 16 b] ∧
    (Assembler.expand (.push b)).map decode = [.ok (.push (BitVec.ofNat 8 b))]) ∧
  (∀ c : Char, asciiChar c = true → Assembler.expand (.pushChar c) = [0x2000#16 ||| BitVec.ofNat 16 c.toNat] ∧
    (Assembler.expand (.pushChar c)).map decode = [.ok (.push (BitVec.ofNat 8 c.toNat))]) ∧
  (Assembler.expand .pad = [0x3000#16]) ∧ (Assembler.expand .sum = [0x4000#16]) ∧
  (∀ v < 65536, (Assembler.expand (.word v)).map BitVec.toNat = [v]) ∧
  (Assembler.expand .fin = [0x3000#16, 0x4000#16]) ∧ (Assembler.expand (.pushs []) = []) ∧
  (∀ text : List Char, text.all asciiChar = true →
    (Assembler.expand (.pushs text)).map decode = text.map fun c => Except.ok (Instr.push (BitVec.ofNat 8 c.toNat))) ∧
  (∀ (w : Nat) (text : List Char), Assembler.expand (.run w text) =
    Assembler.expand (.init w) ++ Assembler.expand (.pushs text) ++ Assembler.expand .fin) ∧
  (∀ w < 256, ∀ text : List Char, text.all asciiChar = true →
    (Assembler.expand (.run w text)).map decode =
      .ok (.init (BitVec.ofNat 8 w)) :: ((text.map fun c => .ok (.push (BitVec.ofNat 8 c.toNat))) ++ [.ok .pad, .ok .sum]))

/-! ## Ports -/

/-- 10_state.md R30: STATUS is MODE in bits 2:0, ALIGNED (`LEN mod K = 0`; always 1 when WSEL = 0) in bit 3, ERR in bits 6:4, zero in bit 7,
and 0x08 after reset. ALIGNED is combinational, so it follows every command that changes LEN or WSEL. -/
def Obligations.StatusPortLayout : Prop :=
  (∀ s : State, s.statusPort.extractLsb' 0 3 = s.mode ∧
    (s.statusPort.getLsbD 3 = true ↔ s.len.toNat % alignmentOf s.wsel = 0) ∧
    s.statusPort.extractLsb' 4 3 = s.err ∧ s.statusPort.getLsbD 7 = false ∧
    (s.wsel = 0#2 → s.statusPort.getLsbD 3 = true)) ∧
  State.reset.statusPort = 0x08#8

/-- 10_state.md R31: WIDTH shows 8, 16 or 32 by WSEL, and 8 after reset. -/
def Obligations.WidthPortShowsTheSelectedWidth : Prop :=
  (∀ s : State, (s.wsel = 0#2 → s.widthPort = 8#6) ∧ (s.wsel = 1#2 → s.widthPort = 16#6) ∧ (s.wsel = 2#2 → s.widthPort = 32#6)) ∧
  State.reset.widthPort = 8#6

/-! ## INIT -/

/-- 42_width_dispatch.md R112, the whole of `INIT w`: ignored in ERR; Protocol with a run open, whatever the operand; InvalidWidth for no
width; else WSEL by the width, ACC, LEN, VALUE and LENGTH 0, MODE ACCUM, ERR and the rest kept, ALIGNED reading 1, BUF empty. -/
def Obligations.InitSelectsWidthAndOpensRun : Prop :=
  ∀ (w : Byte) (s : State) (buf : List Byte),
    (s.mode = Mode.err → exec (.init w) s = .next s ∧ ghostExec (.init w) s buf = buf) ∧
    (s.mode = Mode.accum ∨ s.mode = Mode.padded →
      exec (.init w) s = .next { s with mode := 4#3, err := 2#3 } ∧ ghostExec (.init w) s buf = buf) ∧
    (s.mode = Mode.idle ∨ s.mode = Mode.done →
      (w ≠ 8#8 → w ≠ 16#8 → w ≠ 32#8 →
        exec (.init w) s = .next { s with mode := 4#3, err := 3#3 } ∧ ghostExec (.init w) s buf = buf) ∧
      (∀ sel : Selector, (w = 8#8 ∧ sel = 0#2) ∨ (w = 16#8 ∧ sel = 1#2) ∨ (w = 32#8 ∧ sel = 2#2) →
        ∃ t, exec (.init w) s = .next t ∧
          t = { s with mode := 1#3, wsel := sel, acc := 0#64, len := 0#32, value := 0#32, length := 0#32 } ∧
          t.statusPort.getLsbD 3 = true ∧ ghostExec (.init w) s buf = []))

/-- 42_width_dispatch.md R113: an INIT in IDLE or DONE whose operand is not 8, 16 or 32 raises InvalidWidth and changes nothing else, WSEL
included; 0, 1, 7, 9, 24, 31, 33, 64, 128 and 255 all fault. -/
def Obligations.InvalidWidthFaultsAndKeepsTheRest : Prop :=
  (∀ (w : Byte) (s : State), s.mode = Mode.idle ∨ s.mode = Mode.done → w.toNat ≠ 8 → w.toNat ≠ 16 → w.toNat ≠ 32 →
    exec (.init w) s = .next { s with mode := 4#3, err := 3#3 }) ∧
  (∀ s : State, s.mode = Mode.idle ∨ s.mode = Mode.done →
    ∀ w ∈ [0#8, 1#8, 7#8, 9#8, 24#8, 31#8, 33#8, 64#8, 128#8, 255#8],
      exec (.init w) s = .next { s with mode := 4#3, err := 3#3 })

/-- "After INIT the engine state, apart from WSEL, is the same whatever ran before" (42_width_dispatch.md R112): the same valid INIT from any
two legal states between runs, whatever their registers, gives one and the same state. DERIVED: it needs ERR = 0 in IDLE and DONE (10_state.md R34). -/
def Obligations.RunsStartIndependentOfThePast : Prop :=
  ∀ (width : Width) (s r : State), Legal s → Legal r → s.mode = Mode.idle ∨ s.mode = Mode.done →
    r.mode = Mode.idle ∨ r.mode = Mode.done → s.host = r.host →
    ∃ t, exec (.init width.operand) s = .next t ∧ exec (.init width.operand) r = .next t

/-! ## PUSH -/

/-- 41_checksum.md R92, the whole of `PUSH b`: ignored in ERR; Protocol in IDLE, PADDED and DONE, whatever LEN; LengthOverflow in ACCUM at
MAXLEN; else `lane_add`, MODE stays ACCUM, ALIGNED becomes `(LEN + 1) mod K = 0`, BUF gains the byte. -/
def Obligations.PushAddsOneInputByte : Prop :=
  ∀ (b : Byte) (s : State) (buf : List Byte),
    (s.mode = Mode.err → exec (.push b) s = .next s ∧ ghostExec (.push b) s buf = buf) ∧
    (s.mode = Mode.idle ∨ s.mode = Mode.padded ∨ s.mode = Mode.done →
      exec (.push b) s = .next { s with mode := 4#3, err := 2#3 } ∧ ghostExec (.push b) s buf = buf) ∧
    (s.mode = Mode.accum → 0xFFFFFFFC ≤ s.len.toNat →
      exec (.push b) s = .next { s with mode := 4#3, err := 4#3 } ∧ ghostExec (.push b) s buf = buf) ∧
    (s.mode = Mode.accum → s.len.toNat < 0xFFFFFFFC →
      ∃ t, exec (.push b) s = .next t ∧
        t = { s with
          acc := BitVec.ofNat 64 (s.acc.toNat + b.toNat * 2 ^ (8 * (alignmentOf s.wsel - 1 - s.len.toNat % alignmentOf s.wsel)))
          len := BitVec.ofNat 32 (s.len.toNat + 1) } ∧
        (t.statusPort.getLsbD 3 = true ↔ (s.len.toNat + 1) % alignmentOf s.wsel = 0) ∧
        ghostExec (.push b) s buf = buf ++ [b])

/-- 41_checksum.md R93, the table of the byte data path: the lane shift by width and phase (0; 8, 0; 24, 16, 8, 0), the byte unsigned. -/
def Obligations.PushSteersTheByteToItsLane : Prop :=
  ∀ (b : Byte) (s : State), s.mode = Mode.accum → s.len.toNat < 0xFFFFFFFC →
    ∀ sh : Nat,
      (s.wsel = 0#2 ∧ sh = 0) ∨
      (s.wsel = 1#2 ∧ s.len.toNat % 2 = 0 ∧ sh = 8) ∨ (s.wsel = 1#2 ∧ s.len.toNat % 2 = 1 ∧ sh = 0) ∨
      (s.wsel = 2#2 ∧ s.len.toNat % 4 = 0 ∧ sh = 24) ∨ (s.wsel = 2#2 ∧ s.len.toNat % 4 = 1 ∧ sh = 16) ∨
      (s.wsel = 2#2 ∧ s.len.toNat % 4 = 2 ∧ sh = 8) ∨ (s.wsel = 2#2 ∧ s.len.toNat % 4 = 3 ∧ sh = 0) →
      exec (.push b) s = .next { s with acc := s.acc + (b.setWidth 64 <<< sh), len := s.len + 1#32 }

/-- 41_checksum.md R95: a PUSH in ACCUM at LEN = MAXLEN raises LengthOverflow and changes neither ACC nor LEN; hence LEN stays at most MAXLEN,
and a PUSH never wraps it. "Always" is said for every step, whatever the host does, from a legal state, which the reset state is
(ResetStateIsLegal) and every step leaves (StepKeepsLegal): LEN is at most MAXLEN, at most MAXLEN bytes are summed, and LEN falls only to 0, by
an INIT that opens a run or by reset, so it never wraps. -/
def Obligations.LengthOverflowGuardsThePush : Prop :=
  (∀ (b : Byte) (s : State), s.mode = Mode.accum → s.len = 0xFFFFFFFC#32 →
    exec (.push b) s = .next { s with mode := 4#3, err := 4#3 }) ∧
  (∀ (b : Byte) (s t : State), s.len.toNat ≤ 0xFFFFFFFC → exec (.push b) s = .next t →
    t.len.toNat ≤ 0xFFFFFFFC ∧ (t.len = s.len ∨ t.len.toNat = s.len.toNat + 1)) ∧
  (∀ (s t : State), Legal s → step s = .next t →
    t.len.toNat ≤ 0xFFFFFFFC ∧
    (∀ buf, Represents s buf → (ghostStep s buf).length ≤ 0xFFFFFFFC) ∧
    (t.len.toNat < s.len.toNat → t.len = 0#32 ∧
      ((∃ rest, s.host = .reset :: rest) ∨ (∃ cw rest, s.host = .resetWithCommand cw :: rest) ∨
        ∃ (width : Width) (rest : List HostMove), s.host = .command (encode (.init width.operand)) :: rest)))

/-! ## PAD -/

/-- 40_pad.md R82, the whole of `PAD` for the three widths: ignored in ERR; Protocol in IDLE and DONE; else `p` filler bytes 0x58 are added in
the low lanes, LEN grows by `p`, MODE is PADDED, ALIGNED reads 1, BUF is padded. DERIVED: R82 marks "ALIGNED reads 1" as derived from R81
item 1, and the additions are the cases of R83, which the spec derives too. For a LEN above MAXLEN, which no legal state has, `LEN + p` is taken
modulo 2^32 (the model's reading, log entry 5). -/
def Obligations.PadFillsTheLastWord : Prop :=
  ∀ (s : State) (buf : List Byte),
    (s.mode = Mode.err → exec .pad s = .next s ∧ ghostExec .pad s buf = buf) ∧
    (s.mode = Mode.idle ∨ s.mode = Mode.done →
      exec .pad s = .next { s with mode := 4#3, err := 2#3 } ∧ ghostExec .pad s buf = buf) ∧
    (s.mode = Mode.accum ∨ s.mode = Mode.padded → ∀ width : Width, s.wsel = width.selector →
      ∀ (p : Nat) (added : Accumulator), p = (width.alignment - s.len.toNat % width.alignment) % width.alignment →
        (p = 0 ∧ added = 0#64) ∨ (p = 1 ∧ added = 0x58#64) ∨ (p = 2 ∧ added = 0x5858#64) ∨ (p = 3 ∧ added = 0x585858#64) →
        ∃ t, exec .pad s = .next t ∧
          t = { s with mode := 2#3, acc := s.acc + added, len := s.len + BitVec.ofNat 32 p } ∧
          t.statusPort.getLsbD 3 = true ∧ ghostExec .pad s buf = Reference.pad buf width)

/-- 40_pad.md R84, DERIVED by the spec from R82, R95 and R7: PAD cannot overflow LEN; it raises LEN to the next multiple of K, at most 3 bytes
on and at most MAXLEN. -/
def Obligations.PadNeverOverflowsTheLength : Prop :=
  ∀ (s : State) (width : Width), s.wsel = width.selector → s.len.toNat ≤ 0xFFFFFFFC → s.mode = Mode.accum ∨ s.mode = Mode.padded →
    ∃ t, exec .pad s = .next t ∧ t.len.toNat ≤ 0xFFFFFFFC ∧ t.len.toNat % width.alignment = 0 ∧
      s.len.toNat ≤ t.len.toNat ∧ t.len.toNat < s.len.toNat + width.alignment

/-- "a second PAD directly after a PAD changes nothing" (20_memory.md R48; 40_pad.md R83): DERIVED. -/
def Obligations.SecondPadChangesNothing : Prop :=
  ∀ (s t : State) (width : Width), s.wsel = width.selector → s.mode = Mode.accum ∨ s.mode = Mode.padded →
    exec .pad s = .next t → exec .pad t = .next t

/-- 40_pad.md R86, DERIVED by the spec from R82 and R92: from an open run that accepts input, PAD reaches the state that `p` pushes of 0x58
reach, but for MODE. -/
def Obligations.PadEqualsPushedFiller : Prop :=
  ∀ (s : State) (width : Width) (p : Nat), Legal s → s.mode = Mode.accum → s.wsel = width.selector →
    p = (width.alignment - s.len.toNat % width.alignment) % width.alignment →
    ∃ u, afterWords (List.replicate p 0x2058#16) s = .next u ∧ u.mode = Mode.accum ∧
      exec .pad s = .next { u with mode := Mode.padded }

/-! ## SUM -/

/-- 41_checksum.md R97 with the mask of R99, the whole of `SUM` for the three widths: ignored in ERR; Protocol in IDLE and DONE, aligned or
not; Alignment for a misaligned length; else VALUE is the low 8, 16 or 32 bits of ACC, LENGTH is LEN, MODE is DONE, ACC and LEN are kept and
ALIGNED stays 1. -/
def Obligations.SumPublishesTheMaskedSum : Prop :=
  ∀ s : State,
    (s.mode = Mode.err → exec .sum s = .next s) ∧
    (s.mode = Mode.idle ∨ s.mode = Mode.done → exec .sum s = .next { s with mode := 4#3, err := 2#3 }) ∧
    (s.mode = Mode.accum ∨ s.mode = Mode.padded → ∀ width : Width, s.wsel = width.selector →
      (s.len.toNat % width.alignment ≠ 0 → exec .sum s = .next { s with mode := 4#3, err := 5#3 }) ∧
      (s.len.toNat % width.alignment = 0 → ∃ t,
        exec .sum s = .next t ∧
        t = { s with mode := 3#3, value := BitVec.ofNat 32 (s.acc.toNat % 2 ^ width.bits), length := s.len } ∧
        t.statusPort.getLsbD 3 = true))

/-- 41_checksum.md R99: the published value is the low W bits of the accumulator and nothing above: VALUE = ACC[31:0] for width 32,
VALUE[15:0] = ACC[15:0] and VALUE[31:16] = 0 for width 16, VALUE[7:0] = ACC[7:0] and VALUE[31:8] = 0 for width 8. -/
def Obligations.MaskKeepsTheLowBitsOnly : Prop :=
  ∀ s : State, s.mode = Mode.accum ∨ s.mode = Mode.padded →
    (s.wsel = 2#2 → s.len.toNat % 4 = 0 → ∃ t, exec .sum s = .next t ∧ t.value = s.acc.extractLsb' 0 32) ∧
    (s.wsel = 1#2 → s.len.toNat % 2 = 0 → ∃ t, exec .sum s = .next t ∧
      t.value.extractLsb' 0 16 = s.acc.extractLsb' 0 16 ∧ t.value.extractLsb' 16 16 = 0#16) ∧
    (s.wsel = 0#2 → ∃ t, exec .sum s = .next t ∧
      t.value.extractLsb' 0 8 = s.acc.extractLsb' 0 8 ∧ t.value.extractLsb' 8 24 = 0#24)

/-- 41_checksum.md R98: SUM with a misaligned length raises Alignment and nothing else changes, VALUE and LENGTH staying 0; the fault occurs only
for widths 16 and 32 and only from ACCUM; and PAD then SUM from an open run always ends in DONE. -/
def Obligations.AlignmentGuardOnSum : Prop :=
  ∀ s : State, Legal s → s.mode = Mode.accum ∨ s.mode = Mode.padded →
    (s.len.toNat % alignmentOf s.wsel ≠ 0 →
      exec .sum s = .next { s with mode := 4#3, err := 5#3 } ∧ s.value = 0#32 ∧ s.length = 0#32 ∧
      s.wsel ≠ 0#2 ∧ s.mode = Mode.accum) ∧
    (∃ t u, exec .pad s = .next t ∧ exec .sum t = .next u ∧ u.mode = Mode.done ∧ u.err = 0#3)

/-! ## Faults and modes -/

/-- 60_exceptions.md R126 with the codes of R120: fault entry writes MODE <- 4 and ERR <- the code and no other register, and STATUS then reads
`0x04 | (ALIGNED << 3) | (c << 4)`, ALIGNED from the frozen LEN and WSEL. -/
def Obligations.FaultEntryWritesModeAndErrOnly : Prop :=
  ∀ (s : State) (f : FaultCode) (c : ErrCode),
    (f = .illegalCommand ∧ c = 1#3) ∨ (f = .protocol ∧ c = 2#3) ∨ (f = .invalidWidth ∧ c = 3#3) ∨
      (f = .lengthOverflow ∧ c = 4#3) ∨ (f = .alignment ∧ c = 5#3) →
    s.raise f = { s with mode := 4#3, err := c } ∧
    (s.raise f).statusPort = 0x04#8 ||| ((BitVec.ofBool s.aligned).setWidth 8 <<< 3) ||| (c.setWidth 8 <<< 4)

/-- 60_exceptions.md R122, the whole table: from a state with no fault recorded, a command raises Protocol exactly in the modes the table names. -/
def Obligations.ProtocolExactlyOutsideLegalModes : Prop :=
  ∀ s : State, s.mode.toNat < 4 → s.err = 0#3 →
    (∀ w, exec (.init w) s = .next { s with mode := 4#3, err := 2#3 } ↔ s.mode = Mode.accum ∨ s.mode = Mode.padded) ∧
    (∀ b, exec (.push b) s = .next { s with mode := 4#3, err := 2#3 } ↔
      s.mode = Mode.idle ∨ s.mode = Mode.padded ∨ s.mode = Mode.done) ∧
    (exec .pad s = .next { s with mode := 4#3, err := 2#3 } ↔ s.mode = Mode.idle ∨ s.mode = Mode.done) ∧
    (exec .sum s = .next { s with mode := 4#3, err := 2#3 } ↔ s.mode = Mode.idle ∨ s.mode = Mode.done)

/-- 60_exceptions.md R128: in mode ERR every command word, legal or not, is ignored: no register changes and ERR keeps the first fault's code;
only reset leaves ERR, whatever the host does. -/
def Obligations.ErrModeIsAbsorbing : Prop :=
  (∀ (s : State) (cw : CommandWord) (rest : List HostMove), s.mode = Mode.err → s.host = .command cw :: rest →
    step s = .next { s with host := rest }) ∧
  (∀ (s t : State) (k : Nat), s.mode = Mode.err → (∀ m ∈ s.host.take k, ∃ cw, m = .command cw) →
    Core.run core k s = .next t → t = { s with host := s.host.drop k })

/-- 60_exceptions.md R129, the order of the checks: ERR first (no fault), then an illegal word, then the mode, then the operand. -/
def Obligations.FaultPriority : Prop :=
  ∀ (s : State) (cw : CommandWord),
    (s.mode = Mode.err → runWord cw s = .next s) ∧
    (s.mode.toNat < 4 → (∀ i, decode cw ≠ .ok i) → runWord cw s = .next { s with mode := 4#3, err := 1#3 }) ∧
    (∀ w, s.mode = Mode.accum ∨ s.mode = Mode.padded → decode cw = .ok (.init w) →
      runWord cw s = .next { s with mode := 4#3, err := 2#3 }) ∧
    (∀ b, s.mode = Mode.idle ∨ s.mode = Mode.padded ∨ s.mode = Mode.done → decode cw = .ok (.push b) →
      runWord cw s = .next { s with mode := 4#3, err := 2#3 }) ∧
    (s.mode = Mode.idle ∨ s.mode = Mode.done → decode cw = .ok .pad ∨ decode cw = .ok .sum →
      runWord cw s = .next { s with mode := 4#3, err := 2#3 }) ∧
    (∀ w, s.mode = Mode.idle ∨ s.mode = Mode.done → decode cw = .ok (.init w) → w.toNat ≠ 8 → w.toNat ≠ 16 → w.toNat ≠ 32 →
      runWord cw s = .next { s with mode := 4#3, err := 3#3 }) ∧
    (∀ b, s.mode = Mode.accum → decode cw = .ok (.push b) → 0xFFFFFFFC ≤ s.len.toNat →
      runWord cw s = .next { s with mode := 4#3, err := 4#3 }) ∧
    (s.mode = Mode.accum ∨ s.mode = Mode.padded → decode cw = .ok .sum → s.len.toNat % alignmentOf s.wsel ≠ 0 →
      runWord cw s = .next { s with mode := 4#3, err := 5#3 })

/-- 60_exceptions.md R138, the complete transition table, every row and column: MODE (and ERR, by R126) after any command word in any of the
five modes, and IDLE after reset. -/
def Obligations.ModeMachineFollowsTheTable : Prop :=
  ∀ (s : State), s.mode.toNat ≤ 4 →
    (∀ cw : CommandWord, ∃ t, runWord cw s = .next t ∧
      t.mode = (modeTable s.mode (modeEvent cw s)).modeAfter s.mode ∧
      t.err = (modeTable s.mode (modeEvent cw s)).errAfter s.err) ∧
    (∃ t, perform .reset s = .next t ∧ t.mode = (modeTable s.mode .reset).modeAfter s.mode)

/-- 60_exceptions.md R140, DERIVED by the spec from the command rules: the machine's step on a command word is the step function of R140, and
its step on reset zeroes the registers. It is said of every state, so also where the spec gives no meaning: MODE codes 5 to 7 act as ERR (the
model's choice, log entry 3), the K and W of WSEL = 3 are free values on both sides (log entry 4), and a LEN above MAXLEN wraps at 2^32 (log
entry 5). -/
def Obligations.StepIsTheConsolidatedStep : Prop :=
  (∀ (s : State) (cw : CommandWord) (rest : List HostMove), s.host = .command cw :: rest →
    step s = .next (Consolidated.commandStep { s with host := rest } cw)) ∧
  (∀ (s : State) (rest : List HostMove), s.host = .reset :: rest →
    step s = .next { mode := 0, wsel := 0, acc := 0, len := 0, err := 0, value := 0, length := 0, host := rest })

/-! ## Frames and whole-machine rules -/

/-- 10_state.md R36, DERIVED by the spec from the command rules, the row INIT: an INIT that faults writes MODE and ERR only; one that does not
keeps ERR; either keeps the host's moves. -/
def Obligations.InitFrame : Prop :=
  ∀ (w : Byte) (s t : State), exec (.init w) s = .next t →
    (t.mode = Mode.err → s.mode ≠ Mode.err → t = { s with mode := t.mode, err := t.err }) ∧
    (t.mode ≠ Mode.err → t.err = s.err) ∧ t.host = s.host

/-- 10_state.md R36, DERIVED by the spec, the row PUSH: a PUSH that faults writes MODE and ERR only; any other writes at most ACC and LEN. -/
def Obligations.PushFrame : Prop :=
  ∀ (b : Byte) (s t : State), exec (.push b) s = .next t →
    (t.mode = Mode.err → s.mode ≠ Mode.err → t = { s with mode := t.mode, err := t.err }) ∧
    (t.mode ≠ Mode.err → t = { s with acc := t.acc, len := t.len })

/-- 10_state.md R36, DERIVED by the spec, the row PAD: a PAD that faults writes MODE and ERR only; any other writes at most MODE, ACC and LEN. -/
def Obligations.PadFrame : Prop :=
  ∀ s t : State, exec .pad s = .next t →
    (t.mode = Mode.err → s.mode ≠ Mode.err → t = { s with mode := t.mode, err := t.err }) ∧
    (t.mode ≠ Mode.err → t = { s with mode := t.mode, acc := t.acc, len := t.len })

/-- 10_state.md R36, DERIVED by the spec, the row SUM: a SUM that faults writes MODE and ERR only; any other writes at most MODE, VALUE and LENGTH. -/
def Obligations.SumFrame : Prop :=
  ∀ s t : State, exec .sum s = .next t →
    (t.mode = Mode.err → s.mode ≠ Mode.err → t = { s with mode := t.mode, err := t.err }) ∧
    (t.mode ≠ Mode.err → t = { s with mode := t.mode, value := t.value, length := t.length })

/-- 10_state.md R26 and R27: VALUE and LENGTH are written by SUM, with the masked accumulator and LEN, cleared by INIT and reset, and changed by
nothing else, so they never show a partial sum. -/
def Obligations.OnlySumInitAndResetWriteTheResult : Prop :=
  ∀ s t : State, step s = .next t → t.value ≠ s.value ∨ t.length ≠ s.length →
    (∃ rest, s.host = .command 0x4000#16 :: rest ∧ t.mode = Mode.done ∧
      t.value = (s.acc &&& maskOf s.wsel).setWidth 32 ∧ t.length = s.len) ∨
    (∃ w rest, s.host = .command (encode (.init w)) :: rest ∧ t.mode = Mode.accum ∧ t.value = 0#32 ∧ t.length = 0#32) ∨
    ((∃ rest, s.host = .reset :: rest) ∨ ∃ cw rest, s.host = .resetWithCommand cw :: rest) ∧ t.value = 0#32 ∧ t.length = 0#32

/-- 10_state.md R25: ERR is written only by fault entry, which leaves MODE = ERR and a code 1 to 5, and cleared only by reset. R22 and
42_width_dispatch.md R110: "nothing but INIT and reset writes WSEL". -/
def Obligations.WhoWritesErrAndWsel : Prop :=
  ∀ s t : State, step s = .next t → (∀ rest, s.host ≠ .reset :: rest) → (∀ cw rest, s.host ≠ .resetWithCommand cw :: rest) →
    (t.err ≠ s.err → s.mode.toNat < 4 ∧ t.mode = Mode.err ∧ 1 ≤ t.err.toNat ∧ t.err.toNat ≤ 5) ∧
    (t.wsel ≠ s.wsel → ∃ (width : Width) (rest : List HostMove),
      s.host = .command (encode (.init width.operand)) :: rest ∧ t.wsel = width.selector ∧ t.mode = Mode.accum)

/-- 42_width_dispatch.md R116: in DONE the result pair the host reads stays the same at every step until an INIT that opens a run, or reset; a
fault takes it away (MODE is ERR) but leaves the registers. DERIVED: what the host does with it is not stated. -/
def Obligations.ResultLastsUntilInitOrReset : Prop :=
  ∀ s t : State, s.mode = Mode.done → step s = .next t →
    (t.mode = Mode.done ∧ t.ports.result = s.ports.result) ∨
    (t.mode = Mode.err ∧ t.value = s.value ∧ t.length = s.length ∧ t.ports.result = none) ∨
    (t.mode = Mode.accum ∧ ∃ width : Width, ∃ rest, s.host = .command (encode (.init width.operand)) :: rest) ∨
    (t.mode = Mode.idle ∧ ((∃ rest, s.host = .reset :: rest) ∨ ∃ cw rest, s.host = .resetWithCommand cw :: rest))

/-- "No partial results are ever returned" (42_width_dispatch.md R117; 10_state.md R32): from a legal state, a step after which the ports show
a result either kept the result already shown or was the SUM that finished the run. DERIVED. -/
def Obligations.ResultOnlyFromFinishedRun : Prop :=
  ∀ (s t : State) (r : Value × Length), Legal s → step s = .next t → t.ports.result = some r →
    s.ports.result = some r ∨
    (∃ rest, s.host = .command 0x4000#16 :: rest) ∧ (s.mode = Mode.accum ∨ s.mode = Mode.padded) ∧
      r = ((s.acc &&& maskOf s.wsel).setWidth 32, s.len)

/-! ## Invariants -/

/-- The reset state is legal (10_state.md R34, R35). -/
def Obligations.ResetStateIsLegal : Prop := Legal State.reset

/-- 10_state.md R34, items 4 to 8 and the length bound of item 1, with R26 and R32, DERIVED by the spec: every step, whatever the host does, keeps
a legal state legal. -/
def Obligations.StepKeepsLegal : Prop := ∀ s t : State, Legal s → step s = .next t → Legal t

/-- The reset state represents the empty buffer (10_state.md R34: BUF is empty after reset). -/
def Obligations.ResetRepresentsEmptyBuffer : Prop := Represents State.reset []

/-- 10_state.md R34, items 1 and 2, DERIVED by the spec: every step keeps LEN the length of the ghost buffer and ACC its exact lane sum, with no
wrap, whatever the host does. -/
def Obligations.StepKeepsRepresents : Prop :=
  ∀ (s t : State) (buf : List Byte), Represents s buf → step s = .next t → Represents t (ghostStep s buf)

/-- 41_checksum.md R101, DERIVED by the spec: the accumulator of a state that represents a buffer is below 2^62, so `trunc_64` never discards a
bit; and a published value does not depend on the accumulator's width. -/
def Obligations.AccumulatorNeverWraps : Prop :=
  (∀ (s : State) (buf : List Byte), Represents s buf → s.acc.toNat < 2 ^ 62) ∧
  (∀ (s : State) (buf : List Byte), Represents s buf → s.mode = Mode.done →
    s.value.toNat = laneSum (alignmentOf s.wsel) buf % 2 ^ widthOf s.wsel)

/-- 10_state.md R34 item 3, DERIVED by the spec; 41_checksum.md R93: at a word boundary the lane sum of a buffer is the sum of its big-endian
words, so the byte-serial sum is the source's word-at-a-time sum. -/
def Obligations.LaneSumIsWordSumWhenAligned : Prop :=
  ∀ (width : Width) (buf : List Byte), buf.length % width.alignment = 0 →
    laneSum width.alignment buf = Reference.wordSum width.alignment (buf.length / width.alignment) buf

/-- 10_state.md R34 item 5, DERIVED by the spec: in DONE, VALUE is the reference checksum of the ghost buffer, LENGTH its length, and the length is
a multiple of K. -/
def Obligations.ResultIsTheChecksumOfTheBuffer : Prop :=
  ∀ (s : State) (buf : List Byte) (width : Width), Represents s buf → s.wsel = width.selector → s.mode = Mode.done →
    Reference.checksum buf width = some s.value.toNat ∧ s.length.toNat = buf.length ∧ buf.length % width.alignment = 0

/-! ## The reference functions and the whole run -/

/-- 40_pad.md R81, all seven properties of `pad`. -/
def Obligations.PadReferenceProperties : Prop :=
  ∀ (bytes : List Byte) (w : Width),
    (Reference.pad bytes w).length % w.alignment = 0 ∧
    (∀ i < bytes.length, (Reference.pad bytes w)[i]? = bytes[i]?) ∧
    (∀ i < (Reference.pad bytes w).length, bytes.length ≤ i → (Reference.pad bytes w)[i]? = some 0x58#8) ∧
    Reference.pad (Reference.pad bytes w) w = Reference.pad bytes w ∧
    (bytes.length % w.alignment = 0 → Reference.pad bytes w = bytes) ∧
    Reference.pad bytes .w8 = bytes ∧ Reference.pad [] w = [] ∧
    (Reference.pad bytes w).length - bytes.length ≤ w.alignment - 1

/-- 41_checksum.md R91: for width 8 the checksum is the sum of the bytes mod 256; a returned value is below 2^w; an empty buffer gives 0; and a
value is returned exactly for an aligned length, the sum of the big-endian words modulo 2^w. -/
def Obligations.ChecksumReferenceProperties : Prop :=
  (∀ bytes : List Byte, Reference.checksum bytes .w8 = some ((bytes.map BitVec.toNat).sum % 256)) ∧
  (∀ (bytes : List Byte) (w : Width) (v : Nat), Reference.checksum bytes w = some v → v < 2 ^ w.bits) ∧
  (∀ w : Width, Reference.checksum [] w = some 0) ∧
  (∀ (bytes : List Byte) (w : Width), (Reference.checksum bytes w).isSome = true ↔ bytes.length % w.alignment = 0) ∧
  (∀ (word rest : List Byte) (w : Width) (v : Nat), word.length = w.alignment → Reference.checksum rest w = some v →
    Reference.checksum (word ++ rest) w = some ((Reference.bigEndian word + v) % 2 ^ w.bits))

/-- 20_memory.md R43: words are assembled big-endian: `(byte[i] << 8) | byte[i+1]` for width 16,
`(byte[i]<<24)|(byte[i+1]<<16)|(byte[i+2]<<8)|byte[i+3]` for width 32, and in general byte `i` of a word contributes
`byte[i] * 2^(8 * (K - 1 - (i mod K)))`. -/
def Obligations.WordsAreBigEndian : Prop :=
  (∀ a b : Byte, Reference.bigEndian [a, b] = (a.toNat <<< 8) ||| b.toNat) ∧
  (∀ a b c d : Byte, Reference.bigEndian [a, b, c, d] =
    (((a.toNat <<< 24) ||| (b.toNat <<< 16)) ||| (c.toNat <<< 8)) ||| d.toNat) ∧
  (∀ (w : Width) (word : List Byte), word.length = w.alignment → Reference.bigEndian word = laneSum w.alignment word)

/-- 42_width_dispatch.md R115, DERIVED by the spec, end-to-end correctness: from any legal state in IDLE or DONE, whatever it holds, INIT w, one
PUSH a byte, PAD and SUM raise no fault and end in DONE with VALUE the checksum of the padded bytes, LENGTH their number, WIDTH the width and
STATUS 0x0B. -/
def Obligations.WholeRunGivesTheChecksum : Prop :=
  ∀ (s : State) (w : Width) (bytes : List Byte), Legal s → s.mode = Mode.idle ∨ s.mode = Mode.done →
    (Reference.pad bytes w).length ≤ 0xFFFFFFFC →
    ∃ t, afterWords ((runCommands w bytes [.pad, .sum]).map encode) s = .next t ∧ t.host = s.host ∧
      t.mode = Mode.done ∧ Reference.checksum (Reference.pad bytes w) w = some t.value.toNat ∧
      t.length.toNat = (Reference.pad bytes w).length ∧ t.widthPort.toNat = w.bits ∧ t.statusPort = 0x0B#8

/-- 42_width_dispatch.md R115's last sentence, DERIVED by the spec: the same holds without the PAD when the length is a multiple of `w/8`. -/
def Obligations.RunWithoutPadGivesTheChecksum : Prop :=
  ∀ (s : State) (w : Width) (bytes : List Byte), Legal s → s.mode = Mode.idle ∨ s.mode = Mode.done →
    bytes.length ≤ 0xFFFFFFFC → bytes.length % w.alignment = 0 →
    ∃ t, afterWords ((runCommands w bytes [.sum]).map encode) s = .next t ∧ t.host = s.host ∧
      t.mode = Mode.done ∧ Reference.checksum bytes w = some t.value.toNat ∧
      t.length.toNat = bytes.length ∧ t.widthPort.toNat = w.bits ∧ t.statusPort = 0x0B#8

/-- 70_reset_and_hazards.md R154, DERIVED by the spec from R138: a sequence of command words issued from a legal state in IDLE or DONE raises no
fault exactly when its words are commands that form a prefix of a concatenation of legal runs. -/
def Obligations.FaultFreeSequencesAreLegalRuns : Prop :=
  ∀ (s : State) (cws : List CommandWord), Legal s → s.mode = Mode.idle ∨ s.mode = Mode.done →
    ∃ t, afterWords cws s = .next t ∧
      (t.mode ≠ Mode.err ↔ ∃ cmds : List Instr, cws.map decode = cmds.map .ok ∧ IsLegalSequence cmds)
end

