-- ==== Sys2Proof/Laws/State.lean ====
section
/-! SUPPORT. One lemma per register per named update, so that no proof unfolds a record update. -/

namespace Sys2Proof.Machine

/-! The codes of MODE and ERR as literals, the one spelling simp works in (10_state.md R21; 60_exceptions.md R120) -/

@[simp] theorem Mode.idle_eq : Mode.idle = 0#3 := rfl
@[simp] theorem Mode.accum_eq : Mode.accum = 1#3 := rfl
@[simp] theorem Mode.padded_eq : Mode.padded = 2#3 := rfl
@[simp] theorem Mode.done_eq : Mode.done = 3#3 := rfl
@[simp] theorem Mode.err_eq : Mode.err = 4#3 := rfl

@[simp] theorem FaultCode.code_illegalCommand : FaultCode.illegalCommand.code = 1#3 := rfl
@[simp] theorem FaultCode.code_protocol : FaultCode.protocol.code = 2#3 := rfl
@[simp] theorem FaultCode.code_invalidWidth : FaultCode.invalidWidth.code = 3#3 := rfl
@[simp] theorem FaultCode.code_lengthOverflow : FaultCode.lengthOverflow.code = 4#3 := rfl
@[simp] theorem FaultCode.code_alignment : FaultCode.alignment.code = 5#3 := rfl

/-- A fault's code is never 0: ERR = 0 means no fault (10_state.md R25). -/
theorem FaultCode.code_bounds (f : FaultCode) : 1 ≤ f.code.toNat ∧ f.code.toNat ≤ 5 := by cases f <;> decide

/-! Fault entry (60_exceptions.md R126) -/

@[simp] theorem State.raise_mode (f : FaultCode) (s : State) : (s.raise f).mode = Mode.err := rfl
@[simp] theorem State.raise_wsel (f : FaultCode) (s : State) : (s.raise f).wsel = s.wsel := rfl
@[simp] theorem State.raise_acc (f : FaultCode) (s : State) : (s.raise f).acc = s.acc := rfl
@[simp] theorem State.raise_len (f : FaultCode) (s : State) : (s.raise f).len = s.len := rfl
@[simp] theorem State.raise_err (f : FaultCode) (s : State) : (s.raise f).err = f.code := rfl
@[simp] theorem State.raise_value (f : FaultCode) (s : State) : (s.raise f).value = s.value := rfl
@[simp] theorem State.raise_length (f : FaultCode) (s : State) : (s.raise f).length = s.length := rfl
@[simp] theorem State.raise_host (f : FaultCode) (s : State) : (s.raise f).host = s.host := rfl

/-! The reset input (70_reset_and_hazards.md R150) -/

@[simp] theorem State.clear_mode (s : State) : s.clear.mode = 0#3 := rfl
@[simp] theorem State.clear_wsel (s : State) : s.clear.wsel = 0#2 := rfl
@[simp] theorem State.clear_acc (s : State) : s.clear.acc = 0#64 := rfl
@[simp] theorem State.clear_len (s : State) : s.clear.len = 0#32 := rfl
@[simp] theorem State.clear_err (s : State) : s.clear.err = 0#3 := rfl
@[simp] theorem State.clear_value (s : State) : s.clear.value = 0#32 := rfl
@[simp] theorem State.clear_length (s : State) : s.clear.length = 0#32 := rfl
@[simp] theorem State.clear_host (s : State) : s.clear.host = s.host := rfl

/-! INIT's writes (42_width_dispatch.md R112) -/

@[simp] theorem State.beginRun_mode (sel : Selector) (s : State) : (s.beginRun sel).mode = Mode.accum := rfl
@[simp] theorem State.beginRun_wsel (sel : Selector) (s : State) : (s.beginRun sel).wsel = sel := rfl
@[simp] theorem State.beginRun_acc (sel : Selector) (s : State) : (s.beginRun sel).acc = 0#64 := rfl
@[simp] theorem State.beginRun_len (sel : Selector) (s : State) : (s.beginRun sel).len = 0#32 := rfl
@[simp] theorem State.beginRun_err (sel : Selector) (s : State) : (s.beginRun sel).err = s.err := rfl
@[simp] theorem State.beginRun_value (sel : Selector) (s : State) : (s.beginRun sel).value = 0#32 := rfl
@[simp] theorem State.beginRun_length (sel : Selector) (s : State) : (s.beginRun sel).length = 0#32 := rfl
@[simp] theorem State.beginRun_host (sel : Selector) (s : State) : (s.beginRun sel).host = s.host := rfl

/-! The byte data path (41_checksum.md R93) -/

@[simp] theorem State.laneAdd_mode (b : Byte) (s : State) : (s.laneAdd b).mode = s.mode := rfl
@[simp] theorem State.laneAdd_wsel (b : Byte) (s : State) : (s.laneAdd b).wsel = s.wsel := rfl
@[simp] theorem State.laneAdd_acc (b : Byte) (s : State) : (s.laneAdd b).acc = s.acc + (byteOperand b <<< s.laneShift) := rfl
@[simp] theorem State.laneAdd_len (b : Byte) (s : State) : (s.laneAdd b).len = s.len + 1#32 := rfl
@[simp] theorem State.laneAdd_err (b : Byte) (s : State) : (s.laneAdd b).err = s.err := rfl
@[simp] theorem State.laneAdd_value (b : Byte) (s : State) : (s.laneAdd b).value = s.value := rfl
@[simp] theorem State.laneAdd_length (b : Byte) (s : State) : (s.laneAdd b).length = s.length := rfl
@[simp] theorem State.laneAdd_host (b : Byte) (s : State) : (s.laneAdd b).host = s.host := rfl

/-! PAD's last write (40_pad.md R82) -/

@[simp] theorem State.closeInput_mode (s : State) : s.closeInput.mode = Mode.padded := rfl
@[simp] theorem State.closeInput_wsel (s : State) : s.closeInput.wsel = s.wsel := rfl
@[simp] theorem State.closeInput_acc (s : State) : s.closeInput.acc = s.acc := rfl
@[simp] theorem State.closeInput_len (s : State) : s.closeInput.len = s.len := rfl
@[simp] theorem State.closeInput_err (s : State) : s.closeInput.err = s.err := rfl
@[simp] theorem State.closeInput_value (s : State) : s.closeInput.value = s.value := rfl
@[simp] theorem State.closeInput_length (s : State) : s.closeInput.length = s.length := rfl
@[simp] theorem State.closeInput_host (s : State) : s.closeInput.host = s.host := rfl

/-! SUM's writes (41_checksum.md R97) -/

@[simp] theorem State.publish_mode (s : State) : s.publish.mode = Mode.done := rfl
@[simp] theorem State.publish_wsel (s : State) : s.publish.wsel = s.wsel := rfl
@[simp] theorem State.publish_acc (s : State) : s.publish.acc = s.acc := rfl
@[simp] theorem State.publish_len (s : State) : s.publish.len = s.len := rfl
@[simp] theorem State.publish_err (s : State) : s.publish.err = s.err := rfl
@[simp] theorem State.publish_value (s : State) : s.publish.value = s.maskedSum := rfl
@[simp] theorem State.publish_length (s : State) : s.publish.length = s.len := rfl
@[simp] theorem State.publish_host (s : State) : s.publish.host = s.host := rfl

/-! The host presents words (log entry 1) -/

@[simp] theorem State.present_mode (cws : List CommandWord) (s : State) : (s.present cws).mode = s.mode := rfl
@[simp] theorem State.present_wsel (cws : List CommandWord) (s : State) : (s.present cws).wsel = s.wsel := rfl
@[simp] theorem State.present_acc (cws : List CommandWord) (s : State) : (s.present cws).acc = s.acc := rfl
@[simp] theorem State.present_len (cws : List CommandWord) (s : State) : (s.present cws).len = s.len := rfl
@[simp] theorem State.present_err (cws : List CommandWord) (s : State) : (s.present cws).err = s.err := rfl
@[simp] theorem State.present_value (cws : List CommandWord) (s : State) : (s.present cws).value = s.value := rfl
@[simp] theorem State.present_length (cws : List CommandWord) (s : State) : (s.present cws).length = s.length := rfl
@[simp] theorem State.present_host (cws : List CommandWord) (s : State) : (s.present cws).host = cws.map .command ++ s.host := rfl

/-! The host presents a table word (log entry 1) -/

@[simp] theorem State.withFetchWord_mode (s : State) (nbits w : Nat) : (s.withFetchWord nbits w).mode = s.mode := rfl
@[simp] theorem State.withFetchWord_wsel (s : State) (nbits w : Nat) : (s.withFetchWord nbits w).wsel = s.wsel := rfl
@[simp] theorem State.withFetchWord_acc (s : State) (nbits w : Nat) : (s.withFetchWord nbits w).acc = s.acc := rfl
@[simp] theorem State.withFetchWord_len (s : State) (nbits w : Nat) : (s.withFetchWord nbits w).len = s.len := rfl
@[simp] theorem State.withFetchWord_err (s : State) (nbits w : Nat) : (s.withFetchWord nbits w).err = s.err := rfl
@[simp] theorem State.withFetchWord_value (s : State) (nbits w : Nat) : (s.withFetchWord nbits w).value = s.value := rfl
@[simp] theorem State.withFetchWord_length (s : State) (nbits w : Nat) : (s.withFetchWord nbits w).length = s.length := rfl
@[simp] theorem State.withFetchWord_host (s : State) (nbits w : Nat) : (s.withFetchWord nbits w).host = .command (tableWord nbits w) :: s.host := rfl

/-! The host's moves are no register: taking one off leaves every register-only function as it was. -/

@[simp] theorem State.ignoresCommands_setHost (s : State) (h : List HostMove) : State.ignoresCommands { s with host := h } = s.ignoresCommands := rfl
@[simp] theorem State.betweenRuns_setHost (s : State) (h : List HostMove) : State.betweenRuns { s with host := h } = s.betweenRuns := rfl
@[simp] theorem State.runOpen_setHost (s : State) (h : List HostMove) : State.runOpen { s with host := h } = s.runOpen := rfl
@[simp] theorem State.alignment_setHost (s : State) (h : List HostMove) : State.alignment { s with host := h } = s.alignment := rfl
@[simp] theorem State.phase_setHost (s : State) (h : List HostMove) : State.phase { s with host := h } = s.phase := rfl
@[simp] theorem State.laneShift_setHost (s : State) (h : List HostMove) : State.laneShift { s with host := h } = s.laneShift := rfl
@[simp] theorem State.padAmount_setHost (s : State) (h : List HostMove) : State.padAmount { s with host := h } = s.padAmount := rfl
@[simp] theorem State.aligned_setHost (s : State) (h : List HostMove) : State.aligned { s with host := h } = s.aligned := rfl
@[simp] theorem State.maskedSum_setHost (s : State) (h : List HostMove) : State.maskedSum { s with host := h } = s.maskedSum := rfl

/-! The filler loop of PAD writes ACC and LEN only (40_pad.md R82). -/

@[simp] theorem State.fill_mode (n : Nat) (s : State) : (State.fill n s).mode = s.mode := by
  induction n generalizing s with
  | zero => rfl
  | succ n ih => exact ih (s.laneAdd Config.filler)

@[simp] theorem State.fill_wsel (n : Nat) (s : State) : (State.fill n s).wsel = s.wsel := by
  induction n generalizing s with
  | zero => rfl
  | succ n ih => exact ih (s.laneAdd Config.filler)

@[simp] theorem State.fill_err (n : Nat) (s : State) : (State.fill n s).err = s.err := by
  induction n generalizing s with
  | zero => rfl
  | succ n ih => exact ih (s.laneAdd Config.filler)

@[simp] theorem State.fill_value (n : Nat) (s : State) : (State.fill n s).value = s.value := by
  induction n generalizing s with
  | zero => rfl
  | succ n ih => exact ih (s.laneAdd Config.filler)

@[simp] theorem State.fill_length (n : Nat) (s : State) : (State.fill n s).length = s.length := by
  induction n generalizing s with
  | zero => rfl
  | succ n ih => exact ih (s.laneAdd Config.filler)

@[simp] theorem State.fill_host (n : Nat) (s : State) : (State.fill n s).host = s.host := by
  induction n generalizing s with
  | zero => rfl
  | succ n ih => exact ih (s.laneAdd Config.filler)

end Sys2Proof.Machine
end

