-- ==== Sys2Proof/Laws/Operands.lean ====
section
/-! SUPPORT. What the widths and the operand forms give (00_scope.md R4; 42_width_dispatch.md R110 to R113). -/

namespace Sys2Proof

@[simp] theorem Width.bits_w8 : Width.w8.bits = 8 := rfl
@[simp] theorem Width.bits_w16 : Width.w16.bits = 16 := rfl
@[simp] theorem Width.bits_w32 : Width.w32.bits = 32 := rfl
@[simp] theorem Width.alignment_w8 : Width.w8.alignment = 1 := rfl
@[simp] theorem Width.alignment_w16 : Width.w16.alignment = 2 := rfl
@[simp] theorem Width.alignment_w32 : Width.w32.alignment = 4 := rfl
@[simp] theorem Width.selector_w8 : Width.w8.selector = 0#2 := rfl
@[simp] theorem Width.selector_w16 : Width.w16.selector = 1#2 := rfl
@[simp] theorem Width.selector_w32 : Width.w32.selector = 2#2 := rfl

theorem Width.alignment_pos (w : Width) : 0 < w.alignment := by cases w <;> decide

theorem Width.alignment_le (w : Width) : w.alignment ≤ 4 := by cases w <;> decide

/-- K bytes make a word of W bits (00_scope.md R4). -/
theorem Width.bits_eq (w : Width) : w.bits = 8 * w.alignment := by cases w <;> rfl

/-- K divides every power of two from 4 on: LEN's register and MAXLEN among them (00_scope.md R7). -/
theorem Width.alignment_dvd (w : Width) : w.alignment ∣ 4 := by cases w <;> decide

theorem Width.selector_le (w : Width) : w.selector.toNat ≤ 2 := by cases w <;> decide

/-- WSEL at most 2 is the selector of a width (10_state.md R22). -/
theorem Machine.exists_width_of_selector {sel : Selector} (h : sel.toNat ≤ 2) : ∃ w : Width, sel = w.selector := by
  revert h
  revert sel
  have all : ∀ sel : Selector, sel.toNat ≤ 2 → sel = 0#2 ∨ sel = 1#2 ∨ sel = 2#2 := by decide
  intro sel h
  rcases all sel h with h | h | h
  · exact ⟨.w8, h⟩
  · exact ⟨.w16, h⟩
  · exact ⟨.w32, h⟩

/-- `W = 8 << WSEL` for a width (10_state.md R22). -/
@[simp] theorem Machine.widthOf_selector (w : Width) : widthOf w.selector = w.bits := by cases w <;> rfl

/-- `K = 1 << WSEL` for a width (10_state.md R22). -/
@[simp] theorem Machine.alignmentOf_selector (w : Width) : alignmentOf w.selector = w.alignment := by cases w <;> rfl

/-- INIT's operand for a width names that width (42_width_dispatch.md R111). -/
@[simp] theorem Machine.widthOfOperand_operand (w : Width) : widthOfOperand w.operand = some w := by cases w <;> rfl

/-- An operand names a width exactly if it is the width's number of bits (42_width_dispatch.md R112). -/
theorem Machine.widthOfOperand_eq_some {b : Byte} {w : Width} : widthOfOperand b = some w ↔ b = w.operand := by
  constructor
  · intro h
    unfold widthOfOperand at h
    split at h
    · cases h; assumption
    · split at h
      · cases h; assumption
      · split at h
        · cases h; assumption
        · cases h
  · rintro rfl
    exact widthOfOperand_operand w

/-- The other operands are no width (42_width_dispatch.md R113). -/
theorem Machine.widthOfOperand_eq_none {b : Byte} : widthOfOperand b = none ↔ b ≠ 8#8 ∧ b ≠ 16#8 ∧ b ≠ 32#8 := by
  unfold widthOfOperand
  split
  · simp [*]
  · split
    · simp [*]
    · split <;> simp [*]

/-- The mask of a width has its low W bits set (00_scope.md R4). -/
theorem Machine.maskOf_selector (w : Width) : maskOf w.selector = BitVec.ofNat 64 (2 ^ w.bits - 1) := by cases w <;> rfl

/-- The mask of a width keeps the low W bits (41_checksum.md R99). -/
theorem Machine.maskedSum_toNat {s : Machine.State} {w : Width} (h : s.wsel = w.selector) :
    s.maskedSum.toNat = s.acc.toNat % 2 ^ w.bits := by
  have low_bits : (s.acc &&& maskOf w.selector).toNat = s.acc.toNat % 2 ^ w.bits := by
    rw [maskOf_selector, BitVec.toNat_and, BitVec.toNat_ofNat, Nat.mod_eq_of_lt (by cases w <;> decide),
      Nat.and_two_pow_sub_one_eq_mod]
  rw [State.maskedSum, BitVec.toNat_setWidth, h, low_bits]
  exact Nat.mod_eq_of_lt (Nat.lt_of_lt_of_le (Nat.mod_lt _ (by positivity)) (by cases w <;> decide))

end Sys2Proof
end

