-- ==== Sys2Proof/Laws/Ops.lean ====
section
/-! SUPPORT. What the shared operations do, said once in numbers (41_checksum.md R93; 40_pad.md R82, R83). -/

namespace Sys2Proof.Machine

/-- Commands are ignored exactly for MODE codes 4 and up (60_exceptions.md R128; log entry 3). -/
theorem State.ignoresCommands_iff (s : State) : s.ignoresCommands = true ↔ 4 ≤ s.mode.toNat := by
  simp [State.ignoresCommands, BitVec.le_def]

theorem State.ignoresCommands_eq_false (s : State) : s.ignoresCommands = false ↔ s.mode.toNat < 4 := by
  rw [← Bool.not_eq_true, State.ignoresCommands_iff]
  omega

/-- MODE is one of the four modes in which commands run, or commands are ignored (10_state.md R21; log entry 3). -/
theorem State.mode_cases (s : State) :
    s.mode = Mode.idle ∨ s.mode = Mode.accum ∨ s.mode = Mode.padded ∨ s.mode = Mode.done ∨ s.ignoresCommands = true := by
  have all : ∀ m : Mode, m = Mode.idle ∨ m = Mode.accum ∨ m = Mode.padded ∨ m = Mode.done ∨ Mode.err ≤ m := by decide
  rcases all s.mode with h | h | h | h | h
  · exact .inl h
  · exact .inr (.inl h)
  · exact .inr (.inr (.inl h))
  · exact .inr (.inr (.inr (.inl h)))
  · exact .inr (.inr (.inr (.inr (by simpa [State.ignoresCommands] using h))))

theorem State.alignment_of_selector {s : State} {w : Width} (h : s.wsel = w.selector) : s.alignment = w.alignment := by
  unfold State.alignment
  rw [h, alignmentOf_selector]

theorem State.aligned_iff (s : State) : s.aligned = true ↔ s.len.toNat % alignmentOf s.wsel = 0 := by
  simp [State.aligned, State.phase, State.alignment]

/-- `lane_add` counts one byte (41_checksum.md R93). -/
theorem State.laneAdd_len_toNat {b : Byte} {s : State} (h : s.len.toNat < 0xFFFFFFFF) :
    (s.laneAdd b).len.toNat = s.len.toNat + 1 := by
  simp [BitVec.toNat_add]
  omega

/-- The shift of a lane stays below the widest word for the three widths: no bit of the byte is lost (41_checksum.md R102). -/
theorem State.laneShift_le {s : State} {w : Width} (h : s.wsel = w.selector) : s.laneShift ≤ 24 := by
  have k := w.alignment_le
  unfold State.laneShift
  rw [State.alignment_of_selector h]
  omega

/-- `lane_add` adds the byte times its lane's weight, modulo 2^64 (41_checksum.md R93). -/
theorem State.laneAdd_acc_toNat (b : Byte) (s : State) :
    (s.laneAdd b).acc.toNat = (s.acc.toNat + b.toNat * 2 ^ s.laneShift) % 2 ^ 64 := by
  simp [byteOperand, BitVec.toNat_add, BitVec.toNat_shiftLeft, Nat.shiftLeft_eq]

/-- The filler loop counts its bytes (40_pad.md R82). -/
theorem State.fill_len (n : Nat) (s : State) : (State.fill n s).len = s.len + BitVec.ofNat 32 n := by
  induction n generalizing s with
  | zero => simp [State.fill]
  | succ n ih =>
    rw [State.fill, ih, State.laneAdd_len]
    apply BitVec.eq_of_toNat_eq
    simp only [BitVec.toNat_add, BitVec.toNat_ofNat]
    omega

/-- The filler loop writes ACC and LEN and nothing else (10_state.md R36). -/
theorem State.fill_frame (n : Nat) (s : State) :
    State.fill n s = { s with acc := (State.fill n s).acc, len := (State.fill n s).len } := by
  induction n generalizing s with
  | zero => rfl
  | succ n ih => exact ih (s.laneAdd Config.filler)

theorem State.phase_of_selector {s : State} {w : Width} (h : s.wsel = w.selector) : s.phase = s.len.toNat % w.alignment := by
  rw [State.phase, State.alignment_of_selector h]

/-- The lane shift of a width (41_checksum.md R93). -/
theorem State.laneShift_of_selector {s : State} {w : Width} (h : s.wsel = w.selector) :
    s.laneShift = 8 * (w.alignment - 1 - s.len.toNat % w.alignment) := by
  rw [State.laneShift, State.alignment_of_selector h, State.phase_of_selector h]

/-- The pad amount of a width (40_pad.md R82). -/
theorem State.padAmount_of_selector {s : State} {w : Width} (h : s.wsel = w.selector) :
    s.padAmount = (w.alignment - s.len.toNat % w.alignment) % w.alignment := by
  rw [State.padAmount, State.alignment_of_selector h, State.phase_of_selector h]

/-- K divides 2^32, so the phase moves on by one lane even where the register LEN would wrap. -/
theorem State.laneAdd_len_mod {k : Nat} (hk : k ∣ 4) (b : Byte) (s : State) :
    (s.laneAdd b).len.toNat % k = (s.len.toNat + 1) % k := by
  have h : (s.laneAdd b).len.toNat = (s.len.toNat + 1) % 2 ^ 32 := by simp [BitVec.toNat_add]
  rw [h, Nat.mod_mod_of_dvd _ (hk.trans (by decide))]

/-- PAD's filler bytes go to the low lanes of the last word (40_pad.md R83). -/
theorem State.fill_acc {s : State} {w : Width} (h : s.wsel = w.selector) {p : Nat} {added : Accumulator}
    (hp : p = (w.alignment - s.len.toNat % w.alignment) % w.alignment)
    (ha : (p = 0 ∧ added = 0#64) ∨ (p = 1 ∧ added = 0x58#64) ∨ (p = 2 ∧ added = 0x5858#64) ∨ (p = 3 ∧ added = 0x585858#64)) :
    (State.fill p s).acc = s.acc + added := by
  have one : ∀ (t : State) (n sh : Nat), t.wsel = w.selector → t.len.toNat % w.alignment = n % w.alignment →
      8 * (w.alignment - 1 - n % w.alignment) = sh → (t.laneAdd Config.filler).acc = t.acc + (0x58#64 <<< sh) := by
    intro t n sh ht hn hs
    rw [State.laneAdd_acc, State.laneShift_of_selector ht, hn, hs]
    rfl
  have next := fun t => State.laneAdd_len_mod w.alignment_dvd Config.filler t
  rcases ha with ⟨rfl, rfl⟩ | ⟨rfl, rfl⟩ | ⟨rfl, rfl⟩ | ⟨rfl, rfl⟩
  · simp [State.fill]
  · rw [State.fill, State.fill, one s s.len.toNat 0 h rfl (by cases w <;> simp at hp ⊢ <;> omega)]
    rfl
  · rw [State.fill, State.fill, State.fill, one (s.laneAdd Config.filler) (s.len.toNat + 1) 0 h (next s) (by cases w <;> simp at hp ⊢ <;> omega),
      one s s.len.toNat 8 h rfl (by cases w <;> simp at hp ⊢ <;> omega), BitVec.add_assoc]
    rfl
  · have third : ((s.laneAdd Config.filler).laneAdd Config.filler).len.toNat % w.alignment = (s.len.toNat + 2) % w.alignment := by
      rw [next, Nat.add_mod, next, ← Nat.add_mod]
    rw [State.fill, State.fill, State.fill, State.fill,
      one ((s.laneAdd Config.filler).laneAdd Config.filler) (s.len.toNat + 2) 0 h third (by cases w <;> simp at hp ⊢ <;> omega),
      one (s.laneAdd Config.filler) (s.len.toNat + 1) 8 h (next s) (by cases w <;> simp at hp ⊢ <;> omega),
      one s s.len.toNat 16 h rfl (by cases w <;> simp at hp ⊢ <;> omega), BitVec.add_assoc, BitVec.add_assoc]
    rfl

/-- After the filler the length is a multiple of K (40_pad.md R82). -/
theorem State.fill_aligned {s : State} {w : Width} (h : s.wsel = w.selector) :
    (State.fill s.padAmount s).len.toNat % w.alignment = 0 := by
  rw [State.fill_len, State.padAmount_of_selector h]
  simp only [BitVec.toNat_add, BitVec.toNat_ofNat]
  cases w <;> simp <;> omega

/-- STATUS[3] is ALIGNED (10_state.md R30). -/
theorem State.statusPort_aligned (s : State) : s.statusPort.getLsbD 3 = s.aligned := by
  have bit : ∀ (e : BitVec 3) (a : Bool) (m : BitVec 3), (0#1 ++ e ++ BitVec.ofBool a ++ m).getLsbD 3 = a := by decide
  exact bit s.err s.aligned s.mode

/-- STATUS[2:0] is MODE (10_state.md R30). -/
theorem State.statusPort_mode (s : State) : s.statusPort.extractLsb' 0 3 = s.mode := by
  have bits : ∀ (e : BitVec 3) (a : Bool) (m : BitVec 3), (0#1 ++ e ++ BitVec.ofBool a ++ m).extractLsb' 0 3 = m := by decide
  exact bits s.err s.aligned s.mode

/-- The ports show a result exactly in DONE (10_state.md R32). -/
theorem State.ports_result (s : State) :
    s.ports.result = if s.mode = Mode.done then some (s.value, s.length) else none := by
  rw [Ports.result]
  show (if s.statusPort.extractLsb' 0 3 = Mode.done then some (s.value, s.length) else none) = _
  rw [State.statusPort_mode]

end Sys2Proof.Machine
end

