-- ==== Sys2Proof/Laws/Exec.lean ====
section
/-! SUPPORT. What a command can do, said once: it is ignored, it raises one fault, or it has its own effect (60_exceptions.md R129,
R138). -/

namespace Sys2Proof.Machine

/-- The effect of a command that is accepted (42_width_dispatch.md R112; 41_checksum.md R92, R97; 40_pad.md R82). INIT's width is
that of its operand. -/
def State.effect (i : Instr) (s : State) : State :=
  match i with
  | .init w => s.beginRun ((widthOfOperand w).getD .w8).selector
  | .push b => s.laneAdd b
  | .pad => (State.fill s.padAmount s).closeInput
  | .sum => s.publish

theorem State.betweenRuns_iff (s : State) : s.betweenRuns = true ↔ s.mode = Mode.idle ∨ s.mode = Mode.done := by
  simp [State.betweenRuns]

theorem State.runOpen_iff (s : State) : s.runOpen = true ↔ s.mode = Mode.accum ∨ s.mode = Mode.padded := by
  simp [State.runOpen]

/-- An accepted command runs in one of the four modes below ERR (60_exceptions.md R128). -/
theorem State.not_ignores_of_mode {s : State} (h : s.mode.toNat < 4) : s.ignoresCommands = false :=
  (State.ignoresCommands_eq_false s).2 h

theorem execInit_accepted {w : Byte} {s : State} (h : s.accepts (.init w) = true) :
    execInit w s = .next (s.effect (.init w)) := by
  simp only [State.accepts, Bool.and_eq_true] at h
  obtain ⟨hb, hw⟩ := h
  obtain ⟨width, hwidth⟩ := Option.isSome_iff_exists.1 hw
  have hm : s.ignoresCommands = false := by
    apply State.not_ignores_of_mode
    rcases (State.betweenRuns_iff s).1 hb with h | h <;> simp [h]
  simp [execInit, hm, hb, hwidth, State.effect]

theorem execPush_accepted {b : Byte} {s : State} (h : s.accepts (.push b) = true) :
    execPush b s = .next (s.effect (.push b)) := by
  simp only [State.accepts, Bool.and_eq_true, decide_eq_true_eq] at h
  obtain ⟨ha, hl⟩ := h
  have hm : s.ignoresCommands = false := State.not_ignores_of_mode (by simp [ha])
  simp [execPush, hm, ha, State.effect, BitVec.not_le.2 hl]

theorem State.not_ignores_of_runOpen {s : State} (h : s.runOpen = true) : s.ignoresCommands = false := by
  apply State.not_ignores_of_mode
  rcases (State.runOpen_iff s).1 h with h | h <;> simp [h]

theorem execPad_accepted {s : State} (h : s.accepts .pad = true) : execPad s = .next (s.effect .pad) := by
  have ho : s.runOpen = true := h
  simp [execPad, State.not_ignores_of_runOpen ho, ho, State.effect]

theorem execSum_accepted {s : State} (h : s.accepts .sum = true) : execSum s = .next (s.effect .sum) := by
  simp only [State.accepts, Bool.and_eq_true] at h
  simp [execSum, State.not_ignores_of_runOpen h.1, h.1, h.2, State.effect]

/-- An accepted command has its own effect. -/
theorem exec_accepted {i : Instr} {s : State} (h : s.accepts i = true) : exec i s = .next (s.effect i) := by
  cases i with
  | init w => exact execInit_accepted h
  | push b => exact execPush_accepted h
  | pad => exact execPad_accepted h
  | sum => exact execSum_accepted h

/-- The fault a command raises where it is neither ignored nor accepted: the mode is tested before the operand (60_exceptions.md R129). -/
def State.faultOf (i : Instr) (s : State) : FaultCode :=
  match i with
  | .init _ => if s.betweenRuns then .invalidWidth else .protocol
  | .push _ => if s.mode = Mode.accum then .lengthOverflow else .protocol
  | .pad => .protocol
  | .sum => if s.runOpen then .alignment else .protocol

/-- A command that is neither ignored nor accepted raises one fault and has no other effect (60_exceptions.md R126, R129). -/
theorem exec_faults {i : Instr} {s : State} (hm : s.ignoresCommands = false) (h : s.accepts i = false) :
    exec i s = .next (s.raise (s.faultOf i)) := by
  cases i with
  | init w =>
    cases hb : s.betweenRuns <;> cases hw : widthOfOperand w <;> simp_all [State.accepts, exec, execInit, State.faultOf]
  | push b =>
    by_cases ha : s.mode = Mode.accum
    · have hl : Config.maxLen ≤ s.len := by simpa [State.accepts, ha] using h
      simp [exec, execPush, hm, ha, hl, State.faultOf]
    · simp [exec, execPush, hm, ha, State.faultOf]
  | pad =>
    have ho : s.runOpen = false := h
    simp [exec, execPad, hm, ho, State.faultOf]
  | sum =>
    cases ho : s.runOpen <;> cases hl : s.aligned <;> simp_all [State.accepts, exec, execSum, State.faultOf]

/-- In ERR (or a reserved MODE code) a command does nothing (60_exceptions.md R128; log entry 3). -/
theorem exec_ignored {i : Instr} {s : State} (hm : s.ignoresCommands = true) : exec i s = .next s := by
  cases i <;> simp [exec, execInit, execPush, execPad, execSum, hm]

/-- An ignored command is not accepted. -/
theorem State.accepts_of_ignored {i : Instr} {s : State} (hm : s.ignoresCommands = true) : s.accepts i = false := by
  have h4 := (State.ignoresCommands_iff s).1 hm
  have no : ∀ m : Mode, m.toNat < 4 → s.mode ≠ m := fun m h e => by rw [e] at h4; omega
  cases i <;> simp [State.accepts, State.betweenRuns, State.runOpen, no]

/-- Everything a command can do. -/
theorem exec_cases (i : Instr) (s : State) :
    (s.ignoresCommands = true ∧ exec i s = .next s) ∨
    (s.ignoresCommands = false ∧ s.accepts i = false ∧ exec i s = .next (s.raise (s.faultOf i))) ∨
    (s.ignoresCommands = false ∧ s.accepts i = true ∧ exec i s = .next (s.effect i)) := by
  cases hm : s.ignoresCommands
  · cases ha : s.accepts i
    · exact .inr (.inl ⟨rfl, rfl, exec_faults hm ha⟩)
    · exact .inr (.inr ⟨rfl, rfl, exec_accepted ha⟩)
  · exact .inl ⟨rfl, exec_ignored hm⟩

/-- A command always answers a next state (70_reset_and_hazards.md R165). -/
theorem exec_next (i : Instr) (s : State) : ∃ t, exec i s = .next t := by
  rcases exec_cases i s with ⟨_, h⟩ | ⟨_, _, h⟩ | ⟨_, _, h⟩ <;> exact ⟨_, h⟩

/-- An accepted command leaves the machine in ACCUM, PADDED or DONE (60_exceptions.md R138). -/
theorem State.effect_mode {i : Instr} {s : State} (h : s.accepts i = true) :
    (s.effect i).mode = Mode.accum ∨ (s.effect i).mode = Mode.padded ∨ (s.effect i).mode = Mode.done := by
  cases i <;> simp_all [State.effect, State.accepts]

/-- No accepted command writes ERR (10_state.md R25). -/
theorem State.effect_err (i : Instr) (s : State) : (s.effect i).err = s.err := by
  cases i <;> simp [State.effect]

/-- No command touches the host's coming moves. -/
theorem State.effect_host (i : Instr) (s : State) : (s.effect i).host = s.host := by
  cases i <;> simp [State.effect]

theorem exec_host {i : Instr} {s t : State} (h : exec i s = .next t) : t.host = s.host := by
  rcases exec_cases i s with ⟨_, e⟩ | ⟨_, _, e⟩ | ⟨_, _, e⟩ <;> rw [e] at h <;> cases h
  · rfl
  · rfl
  · exact State.effect_host i s

end Sys2Proof.Machine
end

