-- ==== Sys2Proof/Laws/PerInstr.lean ====
section
/-! SUPPORT. The family Encoding: each command's word belongs to its row of the opcode table and decodes to the command
(30_encoding.md R63, R64). -/

namespace Sys2Proof.Laws.Encoding

/-- What is said of each command: its word is covered by its row, the row stands in the table, and the word decodes back. -/
def Statement (i : Instr) : Prop :=
  i.wellFormed = true → i.row ∈ opcodeTable ∧ i.row.covers (encode i) = true ∧ decode (encode i) = .ok i

/-- The number a word stands for, from its three fields (30_encoding.md R60). -/
theorem word_toNat (op zero : BitVec 4) (imm : Byte) :
    (op ++ zero ++ imm).toNat = op.toNat * 4096 + zero.toNat * 256 + imm.toNat := by
  rw [BitVec.toNat_append, ← Nat.shiftLeft_add_eq_or_of_lt imm.isLt, BitVec.toNat_append,
    ← Nat.shiftLeft_add_eq_or_of_lt zero.isLt, Nat.shiftLeft_eq, Nat.shiftLeft_eq]
  omega

/-- The decoder's fields give back what a word was put together from (30_encoding.md R60). -/
theorem fields_of_word (op zero : BitVec 4) (imm : Byte) :
    opField (op ++ zero ++ imm) = op ∧ zeroField (op ++ zero ++ imm) = zero ∧ immField (op ++ zero ++ imm) = imm := by
  have := op.isLt
  have := zero.isLt
  have := imm.isLt
  refine ⟨?_, ?_, ?_⟩ <;>
  · apply BitVec.eq_of_toNat_eq
    simp only [opField, zeroField, immField, BitVec.extractLsb'_toNat, word_toNat, Nat.shiftRight_eq_div_pow]
    omega

/-- A word is put together from its own fields (30_encoding.md R60). -/
theorem word_of_fields (cw : CommandWord) : opField cw ++ zeroField cw ++ immField cw = cw := by
  have := cw.isLt
  apply BitVec.eq_of_toNat_eq
  rw [word_toNat]
  simp only [opField, zeroField, immField, BitVec.extractLsb'_toNat, Nat.shiftRight_eq_div_pow]
  omega

/-- A word's high byte kept by the mask of INIT and PUSH (30_encoding.md R63). -/
theorem covers_byte_operand : ∀ b : Byte, ((0x1#4 ++ 0x0#4 ++ b : CommandWord) &&& 0xFF00#16 == 0x1000#16) = true ∧
    ((0x2#4 ++ 0x0#4 ++ b : CommandWord) &&& 0xFF00#16 == 0x2000#16) = true := by decide

theorem init (w : Byte) : Statement (.init w) := by
  obtain ⟨hop, hzero, himm⟩ := fields_of_word 0x1#4 0x0#4 w
  refine fun _ => ⟨List.mem_cons_self, (covers_byte_operand w).1, ?_⟩
  rw [decode, encode, hop, hzero, himm]
  rfl

theorem push (b : Byte) : Statement (.push b) := by
  obtain ⟨hop, hzero, himm⟩ := fields_of_word 0x2#4 0x0#4 b
  refine fun _ => ⟨List.mem_cons_of_mem _ List.mem_cons_self, (covers_byte_operand b).2, ?_⟩
  rw [decode, encode, hop, hzero, himm]
  rfl

theorem pad : Statement .pad := fun _ => by decide

theorem sum : Statement .sum := fun _ => by decide

end Sys2Proof.Laws.Encoding
end

