-- ==== Sys2Proof/Laws/Reference.lean ====
section
/-! SUPPORT. The reference functions and the lane sum (40_pad.md R80; 41_checksum.md R90; 10_state.md R34; 20_memory.md R43). -/

namespace Sys2Proof.Machine

/-- The lane sum of a buffer in two parts. -/
theorem laneSumFrom_append (k i : Nat) (xs ys : List Byte) :
    laneSumFrom k i (xs ++ ys) = laneSumFrom k i xs + laneSumFrom k (i + xs.length) ys := by
  induction xs generalizing i with
  | nil => simp [laneSumFrom]
  | cons b xs ih =>
    rw [List.cons_append, laneSumFrom, laneSumFrom, ih, List.length_cons, Nat.add_assoc, Nat.add_assoc, Nat.add_comm 1]

/-- One more byte adds that byte at the lane its index gives it (20_memory.md R43). -/
theorem laneSum_push (k : Nat) (buf : List Byte) (b : Byte) :
    laneSum k (buf ++ [b]) = laneSum k buf + b.toNat * 2 ^ (8 * (k - 1 - buf.length % k)) := by
  simp [laneSum, laneSumFrom_append, laneSumFrom]

/-- A whole number of words further on, the lanes are the same. -/
theorem laneSumFrom_add_alignment (k i : Nat) (buf : List Byte) : laneSumFrom k (i + k) buf = laneSumFrom k i buf := by
  induction buf generalizing i with
  | nil => rfl
  | cons b buf ih =>
    have shift : i + k + 1 = i + 1 + k := by omega
    rw [laneSumFrom, laneSumFrom, Nat.add_mod_right, shift, ih]

@[simp] theorem laneSum_nil (k : Nat) : laneSum k [] = 0 := rfl

/-- The bytes up to a word boundary that is `n` bytes off fill at most the lanes below: a lane sum is at most its whole words at their
greatest, plus what the open word can hold (41_checksum.md R101). -/
theorem laneSum_le {k : Nat} (hk : 0 < k) (buf : List Byte) :
    laneSum k buf + 256 ^ (k - buf.length % k) ≤ 256 ^ k * (buf.length / k + 1) := by
  induction buf using List.reverseRecOn with
  | nil => simp
  | append_singleton buf b ih =>
    have hb : b.toNat ≤ 255 := by have := b.isLt; omega
    have hlt : buf.length % k < k := Nat.mod_lt _ hk
    have weight : 2 ^ (8 * (k - 1 - buf.length % k)) = 256 ^ (k - 1 - buf.length % k) := by
      rw [Nat.pow_mul]
    have split256 : 256 ^ (k - buf.length % k) = 256 ^ (k - 1 - buf.length % k) * 256 := by
      rw [← Nat.pow_succ]
      congr 1
      omega
    rw [laneSum_push, weight, List.length_append, List.length_singleton]
    have step : b.toNat * 256 ^ (k - 1 - buf.length % k) ≤ 255 * 256 ^ (k - 1 - buf.length % k) := Nat.mul_le_mul_right _ hb
    rw [split256] at ih
    by_cases last : buf.length % k + 1 = k
    · have whole : buf.length + 1 = k * (buf.length / k + 1) := by
        have := Nat.div_add_mod buf.length k
        rw [Nat.mul_succ]
        omega
      have hmod : (buf.length + 1) % k = 0 := by rw [whole, Nat.mul_mod_right]
      have hdiv : (buf.length + 1) / k = buf.length / k + 1 := by
        rw [Nat.succ_div]
        rw [if_pos (Nat.dvd_of_mod_eq_zero hmod)]
      have hzero : k - 1 - buf.length % k = 0 := by omega
      rw [hmod, hdiv, Nat.sub_zero]
      rw [hzero] at ih step ⊢
      simp only [Nat.pow_zero] at ih step ⊢
      calc laneSum k buf + b.toNat * 1 + 256 ^ k ≤ 256 ^ k * (buf.length / k + 1) + 256 ^ k := by omega
        _ = 256 ^ k * (buf.length / k + 1 + 1) := by ring
    · have hmod : (buf.length + 1) % k = buf.length % k + 1 := by
        rw [Nat.add_mod, Nat.mod_eq_of_lt (by omega : 1 < k), Nat.mod_eq_of_lt (by omega)]
      have hdiv : (buf.length + 1) / k = buf.length / k := by
        rw [Nat.succ_div]
        rw [if_neg (fun h => by have := Nat.mod_eq_zero_of_dvd h; omega), Nat.add_zero]
      have hnext : k - (buf.length % k + 1) = k - 1 - buf.length % k := by omega
      rw [hmod, hdiv, hnext]
      omega

/-- The padded length (40_pad.md R80). -/
theorem Reference.padTo_length (k : Nat) (bytes : List Byte) :
    (Reference.padTo k bytes).length = bytes.length + (k - bytes.length % k) % k := by
  simp [Reference.padTo]

end Sys2Proof.Machine
end

