-- ==== Sys2Proof/Laws/Step.lean ====
section
/-! SUPPORT. What a step can do, said once (30_encoding.md R61; 60_exceptions.md R140). -/

namespace Sys2Proof.Machine

theorem step_nil {s : State} (h : s.host = []) : step s = .next s := by rw [step, h]

theorem step_cons {s : State} {m : HostMove} {rest : List HostMove} (h : s.host = m :: rest) :
    step s = perform m { s with host := rest } := by rw [step, h]

theorem runWord_ok {cw : CommandWord} {i : Instr} (h : decode cw = .ok i) (s : State) : runWord cw s = exec i s := by
  rw [runWord, h]

theorem runWord_error {cw : CommandWord} {e : DecodeError} (h : decode cw = .error e) (s : State) :
    runWord cw s = execIllegal s := by rw [runWord, h]

theorem runWord_encode (i : Instr) (s : State) : runWord (encode i) s = exec i s := by
  refine runWord_ok ?_ s
  cases i with
  | init w => exact (Laws.Encoding.init w rfl).2.2
  | push b => exact (Laws.Encoding.push b rfl).2.2
  | pad => exact (Laws.Encoding.pad rfl).2.2
  | sum => exact (Laws.Encoding.sum rfl).2.2

/-- Everything a command word can do: nothing in ERR, one fault, or the effect of the command it decodes to. -/
theorem runWord_cases (cw : CommandWord) (s : State) :
    (s.ignoresCommands = true ∧ runWord cw s = .next s) ∨
    (s.ignoresCommands = false ∧ ∃ f, runWord cw s = .next (s.raise f)) ∨
    (s.ignoresCommands = false ∧ ∃ i, decode cw = .ok i ∧ s.accepts i = true ∧ runWord cw s = .next (s.effect i)) := by
  cases hd : decode cw with
  | ok i =>
    rw [runWord_ok hd]
    rcases exec_cases i s with h | ⟨hm, _, h⟩ | ⟨hm, ha, h⟩
    · exact .inl h
    · exact .inr (.inl ⟨hm, _, h⟩)
    · exact .inr (.inr ⟨hm, i, rfl, ha, h⟩)
  | error e =>
    rw [runWord_error hd, execIllegal]
    cases hm : s.ignoresCommands
    · exact .inr (.inl ⟨rfl, _, rfl⟩)
    · exact .inl ⟨rfl, rfl⟩

/-- A command word always answers a next state (70_reset_and_hazards.md R165). -/
theorem runWord_next (cw : CommandWord) (s : State) : ∃ t, runWord cw s = .next t := by
  rcases runWord_cases cw s with ⟨_, h⟩ | ⟨_, _, h⟩ | ⟨_, _, _, _, h⟩ <;> exact ⟨_, h⟩

/-- Everything a step that answers a next state can have done: nothing presented; nothing done by the move; reset; a fault; or the
effect of an accepted command. -/
theorem step_cases {s t : State} (h : step s = .next t) :
    (s.host = [] ∧ t = s) ∨
    ∃ (m : HostMove) (rest : List HostMove), s.host = m :: rest ∧
      (t = { s with host := rest } ∨
      (t = { State.reset with host := rest } ∧ (m = .reset ∨ ∃ cw, m = .resetWithCommand cw)) ∨
      (s.ignoresCommands = false ∧ (∃ f, t = State.raise f { s with host := rest }) ∧ ∃ cw, m = .command cw) ∨
      (s.ignoresCommands = false ∧ ∃ cw i, m = .command cw ∧ decode cw = .ok i ∧ s.accepts i = true ∧
        t = State.effect i { s with host := rest })) := by
  cases hh : s.host with
  | nil =>
    rw [step_nil hh] at h
    cases h
    exact .inl ⟨rfl, rfl⟩
  | cons m rest =>
    rw [step_cons hh] at h
    refine .inr ⟨m, rest, rfl, ?_⟩
    cases m with
    | idle => cases h; exact .inl rfl
    | reset => cases h; exact .inr (.inl ⟨rfl, .inl rfl⟩)
    | resetWithCommand cw => cases h; exact .inr (.inl ⟨rfl, .inr ⟨cw, rfl⟩⟩)
    | twoDrivers a b => cases h
    | command cw =>
      rw [perform] at h
      rcases runWord_cases cw { s with host := rest } with ⟨_, e⟩ | ⟨hm, f, e⟩ | ⟨hm, i, hd, ha, e⟩ <;> rw [e] at h <;> cases h
      · exact .inl rfl
      · exact .inr (.inr (.inl ⟨hm, ⟨f, rfl⟩, cw, rfl⟩))
      · refine .inr (.inr (.inr ⟨hm, cw, i, rfl, hd, ?_, rfl⟩))
        cases i <;> exact ha

/-- One presented word is one step of the whole machine. -/
theorem step_present_cons (cw : CommandWord) (cws : List CommandWord) (s : State) :
    step (s.present (cw :: cws)) = runWord cw (s.present cws) :=
  step_cons (m := .command cw) (rest := (s.present cws).host) rfl

end Sys2Proof.Machine
end

