-- ==== Sys2Proof/Laws/Run.lean ====
section
/-! SUPPORT. Sequences of command words (20_memory.md R50): the engine never looks at the host's coming moves, so a sequence is run word
by word. -/

namespace Sys2Proof.Machine

/-- Another host behind the same registers. -/
def State.setHost (h : List HostMove) (s : State) : State := { s with host := h }

theorem State.fill_setHost (h : List HostMove) (n : Nat) (s : State) :
    State.fill n (s.setHost h) = (State.fill n s).setHost h := by
  induction n generalizing s with
  | zero => rfl
  | succ n ih => exact ih (s.laneAdd Config.filler)

theorem State.accepts_setHost (i : Instr) (h : List HostMove) (s : State) : (s.setHost h).accepts i = s.accepts i := by
  cases i <;> rfl

theorem State.effect_setHost (i : Instr) (h : List HostMove) (s : State) :
    (s.setHost h).effect i = (s.effect i).setHost h := by
  cases i with
  | pad => exact congrArg State.closeInput (State.fill_setHost h s.padAmount s)
  | init w => rfl
  | push b => rfl
  | sum => rfl

/-- A word does the same whatever the host presents later. -/
theorem runWord_setHost {cw : CommandWord} {s t : State} (h : List HostMove) (e : runWord cw s = .next t) :
    runWord cw (s.setHost h) = .next (t.setHost h) := by
  cases hd : decode cw with
  | error d =>
    rw [runWord_error hd, execIllegal] at e ⊢
    have same : (s.setHost h).ignoresCommands = s.ignoresCommands := rfl
    rw [same]
    split at e <;> cases e
    · rename_i hm
      rw [if_pos hm]
    · rename_i hm
      rw [if_neg hm]
      rfl
  | ok i =>
    rw [runWord_ok hd] at e ⊢
    rcases exec_cases i s with ⟨hm, x⟩ | ⟨hm, ha, x⟩ | ⟨hm, ha, x⟩ <;> rw [x] at e <;> cases e
    · exact exec_ignored hm
    · rw [exec_faults (s := s.setHost h) hm (by rw [State.accepts_setHost, ha])]
      cases i <;> rfl
    · rw [exec_accepted (s := s.setHost h) (by rw [State.accepts_setHost, ha]), State.effect_setHost]

/-- A word leaves the host's coming moves. -/
theorem runWord_host {cw : CommandWord} {s t : State} (e : runWord cw s = .next t) : t.host = s.host := by
  rcases runWord_cases cw s with ⟨_, x⟩ | ⟨_, _, x⟩ | ⟨_, i, _, _, x⟩ <;> rw [x] at e <;> cases e
  · rfl
  · rfl
  · exact State.effect_host i s

/-- A run of one more step, when the first step answers a next state. -/
theorem core_run_succ {s t : State} (k : Nat) (h : step s = .next t) :
    Host.Core.run core (k + 1) s = Host.Core.run core k t := by
  have first : core.step s = .next t := h
  simp only [Host.Core.run, first]

theorem afterWords_nil (s : State) : afterWords [] s = .next s := rfl

/-- The first word of a sequence, then the others. -/
theorem afterWords_cons {cw : CommandWord} {s t : State} (cws : List CommandWord) (e : runWord cw s = .next t) :
    afterWords (cw :: cws) s = afterWords cws t := by
  have first : step (s.present (cw :: cws)) = .next (t.present cws) := by
    rw [step_present_cons]
    have x := runWord_setHost (s.present cws).host e
    have y : t.setHost (s.present cws).host = t.present cws := by
      rw [State.present_host, ← runWord_host e]
      rfl
    rw [y] at x
    exact x
  exact core_run_succ cws.length first

/-- Two sequences one after the other. -/
theorem afterWords_append {s t : State} (xs ys : List CommandWord) (e : afterWords xs s = .next t) :
    afterWords (xs ++ ys) s = afterWords ys t := by
  induction xs generalizing s with
  | nil => cases e; rfl
  | cons cw xs ih =>
    obtain ⟨u, hu⟩ := runWord_next cw s
    rw [afterWords_cons xs hu] at e
    rw [List.cons_append, afterWords_cons (xs ++ ys) hu]
    exact ih e

/-- Every sequence of words runs to its end (70_reset_and_hazards.md R165). -/
theorem afterWords_next (cws : List CommandWord) (s : State) : ∃ t, afterWords cws s = .next t := by
  induction cws generalizing s with
  | nil => exact ⟨s, rfl⟩
  | cons cw cws ih =>
    obtain ⟨u, hu⟩ := runWord_next cw s
    rw [afterWords_cons cws hu]
    exact ih u

end Sys2Proof.Machine
end

