-- ==== Sys2Proof/Tests/Slice0.lean ====
section
/-! SUPPORT. Tests whose expected results are the spec's own (95_test_vectors.md, by T-number; 30_encoding.md R63), the smoke test of the
well-formedness checks, and a witness for the hypotheses of each statement. -/

namespace Sys2Proof.Tests.Slice0

open Sys2Proof Sys2Proof.Machine Host

/-- A state as 95_test_vectors.md writes it: MODE WSEL ACC LEN ERR VALUE LENGTH, then what the host presents. -/
def st (mode wsel acc len err value length : Nat) (host : List HostMove) : State :=
  { mode := BitVec.ofNat 3 mode, wsel := BitVec.ofNat 2 wsel, acc := BitVec.ofNat 64 acc, len := BitVec.ofNat 32 len,
    err := BitVec.ofNat 3 err, value := BitVec.ofNat 32 value, length := BitVec.ofNat 32 length, host := host }

/-- The next state of one step, if there is one. -/
def after (s : State) : Option State :=
  match step s with
  | .next t => some t
  | .fault _ => none
  | .refused _ => none

/-! ## The well-formedness checks refuse what they should (30_encoding.md R69) -/

theorem test_init_operand_above_255_refused : (AsmLine.init 256).wellFormed = false := by decide
theorem test_push_operand_above_255_refused : (AsmLine.push 256).wellFormed = false := by decide
theorem test_word_above_16_bits_refused : (AsmLine.word 65536).wellFormed = false := by decide
theorem test_push_char_above_ascii_refused : (AsmLine.pushChar (Char.ofNat 128)).wellFormed = false := by decide
theorem test_pushs_text_above_ascii_refused : (AsmLine.pushs ['A', Char.ofNat 200]).wellFormed = false := by decide
theorem test_run_width_above_255_refused : (AsmLine.run 256 []).wellFormed = false := by decide
theorem test_run_text_above_ascii_refused : (AsmLine.run 16 [Char.ofNat 128]).wellFormed = false := by decide
theorem test_greatest_operands_taken :
    (AsmLine.init 255).wellFormed && (AsmLine.push 255).wellFormed && (AsmLine.word 65535).wellFormed &&
      (AsmLine.pushChar (Char.ofNat 127)).wellFormed = true := by decide

/-! ## Decoding: words written out bit by bit from CW16 (30_encoding.md R60, R63; T1 to T19) -/

theorem test_decode_init : decode 0b0001000000100000#16 = .ok (.init 32#8) := by decide
theorem test_decode_init_no_width : decode 0b0001000000011000#16 = .ok (.init 24#8) := by decide
theorem test_decode_push : decode 0b0010000011111111#16 = .ok (.push 0xFF#8) := by decide
theorem test_decode_pad : decode 0b0011000000000000#16 = .ok .pad := by decide
theorem test_decode_sum : decode 0b0100000000000000#16 = .ok .sum := by decide
theorem test_decode_zero_word_illegal : decode 0x0000#16 = .error .unassignedOpcode := by decide
theorem test_decode_ones_word_illegal : decode 0xFFFF#16 = .error .reservedBits := by decide
theorem test_decode_t15 : decode 0x2141#16 = .error .reservedBits := by decide
theorem test_decode_t16 : decode 0x1810#16 = .error .reservedBits := by decide
theorem test_decode_t17 : decode 0x3001#16 = .error .nonzeroImmediate := by decide
theorem test_decode_t18 : decode 0x4080#16 = .error .nonzeroImmediate := by decide
theorem test_decode_table_word : decodeTableWord 16 0x3000 = some .pad ∧ decodeTableWord 16 0x5000 = none := by decide

/-! ## One step (95_test_vectors.md) -/

theorem test_init_t23 : after (st 3 0 0x83 2 0 0x83 2 [.command 0x1020#16]) = some (st 1 2 0 0 0 0 0 []) := by decide
theorem test_init_t28 : after (st 1 0 0 0 0 0 0 [.command 0x1018#16]) = some (st 4 0 0 0 2 0 0 []) := by decide
theorem test_push_t40 :
    after (st 1 2 0xFFFFFFFF 7 0 0 0 [.command 0x2002#16]) = some (st 1 2 0x100000001 8 0 0 0 []) := by decide
theorem test_push_t47 :
    after (st 1 2 0x82 0xFFFFFFFC 0 0 0 [.command 0x2041#16]) = some (st 4 2 0x82 0xFFFFFFFC 4 0 0 []) := by decide
theorem test_pad_t58 :
    after (st 1 2 0x86424344 5 0 0 0 [.command 0x3000#16]) = some (st 2 2 0x869A9B9C 8 0 0 0 []) := by decide
theorem test_pad_t61 :
    after (st 3 0 0x83 2 0 0x83 2 [.command 0x3000#16]) = some (st 4 0 0x83 2 2 0x83 2 []) := by decide
theorem test_sum_t74 :
    after (st 1 1 0x10001 4 0 0 0 [.command 0x4000#16]) = some (st 3 1 0x10001 4 0 1 4 []) := by decide
theorem test_sum_t80 :
    after (st 1 2 0x41420000 2 0 0 0 [.command 0x4000#16]) = some (st 4 2 0x41420000 2 5 0 0 []) := by decide
theorem test_illegal_t92 : after (st 0 0 0 0 0 0 0 [.command 0x2141#16]) = some (st 4 0 0 0 1 0 0 []) := by decide
theorem test_err_ignores_t94 : after (st 4 0 0 0 2 0 0 [.command 0x0000#16]) = some (st 4 0 0 0 2 0 0 []) := by decide
theorem test_reset_t96 : after (st 4 1 0x8442 3 5 0 0 [.reset]) = some (st 0 0 0 0 0 0 0 []) := by decide
theorem test_status_t78 : (st 4 1 0x8442 3 5 0 0 []).statusPort = 0x54#8 := by decide
theorem test_fetch_word_runs_first : after (State.reset.withFetchWord 16 0x1010) = some (st 1 1 0 0 0 0 0 []) := by decide

/-! ## The reference functions and the assembler (95_test_vectors.md T106, T113; 30_encoding.md R71) -/

theorem test_checksum_t106 : Reference.checksum (Reference.pad [0x41#8, 0x42#8, 0x43#8] .w16) .w16 = some 0x849A := by decide
theorem test_checksum_t119 : Reference.checksum [1#8, 2#8, 3#8, 4#8] .w32 = some 0x01020304 := by decide
theorem test_checksum_misaligned : Reference.checksum [0x41#8] .w16 = none := by decide
theorem test_assemble_run_line :
    Assembler.assembleText ['R', 'U', 'N', ' ', '1', '6', ',', ' ', '"', 'A', 'B', '"'] =
      some [0x1010#16, 0x2041#16, 0x2042#16, 0x3000#16, 0x4000#16] := by decide
theorem test_assemble_lines :
    Assembler.assembleText ['P', 'U', 'S', 'H', ' ', '0', 'x', '5', '8', '\n', ';', ' ', 'c', '\n', 'P', 'U', 'S', 'H', ' ', '\'', 'A', '\'',
      ' ', ';', '\n', 'F', 'I', 'N'] = some [0x2058#16, 0x2041#16, 0x3000#16, 0x4000#16] := by decide
theorem test_assemble_refuses_wide_operand :
    Assembler.assembleText ['P', 'U', 'S', 'H', ' ', '2', '5', '6'] = none := by decide

/-! ## Legal states and represented buffers: witnesses of the invariants -/

theorem legal_idle : Legal (st 0 0 0 0 0 0 0 []) := by constructor <;> decide
theorem legal_accum (h : List HostMove) : Legal (st 1 2 0x41420000 2 0 0 0 h) := by constructor <;> simp [st, widthOf, alignmentOf]
theorem legal_accum8 : Legal (st 1 0 0x41 1 0 0 0 []) := by constructor <;> decide
theorem legal_padded : Legal (st 2 1 0x4158 2 0 0 0 []) := by constructor <;> decide
theorem legal_done (h : List HostMove) : Legal (st 3 1 0x14142 4 0 0x4142 4 h) := by
  constructor <;> simp [st, widthOf, alignmentOf]
theorem legal_err : Legal (st 4 1 0x8442 3 5 0 0 []) := by constructor <;> decide

/-- Hypotheses of StepKeepsRepresents, AccumulatorNeverWraps, ResultIsTheChecksumOfTheBuffer. -/
theorem represents_done : Represents (st 3 1 0x4142 2 0 0x4142 2 []) [0x41#8, 0x42#8] := by
  refine ⟨?_, by decide, by decide⟩
  constructor <;> decide

theorem witness_represents_step :
    ∃ s t buf, Represents s buf ∧ step s = .next t ∧ buf ≠ [] := ⟨_, _, _, represents_done, rfl, by decide⟩

theorem witness_result_checksum :
    ∃ (s : State) (buf : List Byte) (w : Width), Represents s buf ∧ s.wsel = w.selector ∧ s.mode = Mode.done :=
  ⟨_, _, .w16, represents_done, rfl, rfl⟩

/-! ## Witnesses of the statements' hypotheses, by the statement's name -/

theorem witness_ResetInput_clears : ∃ (s : State) (rest : List HostMove), s.mode = 7#3 ∧ s.host = .reset :: rest :=
  ⟨st 7 3 5 5 7 5 5 [.reset], [], rfl, rfl⟩

/-- An open run goes on, from a legal state; the three below it are the other clauses. -/
theorem witness_ResetInput_runGoesOn : ∃ s t : State, Legal s ∧ step s = .next t ∧ (∀ rest, s.host ≠ .reset :: rest) ∧
    (∀ cw rest, s.host ≠ .resetWithCommand cw :: rest) ∧ s.mode = Mode.accum ∧ t.mode = Mode.accum :=
  ⟨_, _, legal_accum [.command 0x2041#16], rfl, by simp [st], by simp [st], rfl, by decide⟩

theorem witness_ResetInput_onlyWayOut :
    (∃ s t, step s = .next t ∧ (∀ rest, s.host ≠ .reset :: rest) ∧ (∀ cw rest, s.host ≠ .resetWithCommand cw :: rest) ∧
      s.mode = Mode.err) ∧
    (∃ s t, step s = .next t ∧ (∀ rest, s.host ≠ .reset :: rest) ∧ (∀ cw rest, s.host ≠ .resetWithCommand cw :: rest) ∧
      s.mode = Mode.accum) ∧
    (∃ s t, step s = .next t ∧ (∀ rest, s.host ≠ .reset :: rest) ∧ (∀ cw rest, s.host ≠ .resetWithCommand cw :: rest) ∧
      s.mode = Mode.padded) :=
  ⟨⟨st 4 0 0 0 2 0 0 [.command 0x1008#16], _, rfl, by simp [st], by simp [st], rfl⟩,
   ⟨st 1 0 0 0 0 0 0 [.command 0x4000#16], _, rfl, by simp [st], by simp [st], rfl⟩,
   ⟨st 2 0 0 0 0 0 0 [.command 0x4000#16], _, rfl, by simp [st], by simp [st], rfl⟩⟩

/-- ResetWinsOverSimultaneousCommand: reset with a word before each kind of move and before none, and plain reset before a command. -/
theorem witness_ResetWins :
    (∀ rest ∈ [[], [.idle], [.reset], [.command 0x1008#16], [.resetWithCommand 0x2041#16]],
      (st 4 0 0 0 2 0 0 (.resetWithCommand 0x2041#16 :: rest)).host = .resetWithCommand 0x2041#16 :: rest) ∧
    (∃ (s : State) (next : CommandWord) (rest : List HostMove), s.host = .reset :: .command next :: rest) ∧
    (∃ (s : State) (cw next : CommandWord) (rest : List HostMove), s.host = .resetWithCommand cw :: .command next :: rest) :=
  ⟨by decide, ⟨st 4 0 0 0 2 0 0 [.reset, .command 0x1008#16], _, _, rfl⟩,
   ⟨st 4 0 0 0 2 0 0 [.resetWithCommand 0x2041#16, .command 0x1008#16], _, _, _, rfl⟩⟩

theorem witness_StepRunsDecodedCommand : ∃ (s : State) (cw : CommandWord) (rest : List HostMove) (i : Instr),
    s.host = .command cw :: rest ∧ decode cw = .ok i :=
  ⟨st 0 0 0 0 0 0 0 [.command 0x1008#16], 0x1008#16, [], .init 8#8, rfl, by decide⟩

theorem witness_SilentPort : (∃ s : State, s.host = []) ∧ ∃ (s : State) (rest : List HostMove), s.host = .idle :: rest :=
  ⟨⟨State.reset, rfl⟩, ⟨st 1 0 0 0 0 0 0 [.idle], [], rfl⟩⟩

/-- Words at the edges of each kind of illegal word. -/
theorem witness_IllegalWords :
    (0x2141#16).toNat / 256 % 16 ≠ 0 ∧ (0x1F00#16).toNat / 256 % 16 ≠ 0 ∧ (0x00FF#16).toNat / 4096 = 0 ∧
    5 ≤ (0x5000#16).toNat / 4096 ∧ 5 ≤ (0xF000#16).toNat / 4096 ∧
    (0x3001#16).toNat / 4096 = 3 ∧ (0x3001#16).toNat % 256 ≠ 0 ∧ (0x40FF#16).toNat / 4096 = 4 ∧ (0x40FF#16).toNat % 256 ≠ 0 ∧
    (∀ cw, (st 3 0 0 0 0 0 0 [.command cw]).mode.toNat < 4 ∧ (st 3 0 0 0 0 0 0 [.command cw]).host = [.command cw]) :=
  ⟨by decide, by decide, by decide, by decide, by decide, by decide, by decide, by decide, by decide, fun _ => ⟨by simp [st], rfl⟩⟩

theorem witness_EveryCommandWord : ∃ (s : State) (cw : CommandWord) (rest : List HostMove), s.host = .command cw :: rest :=
  ⟨st 5 3 0 0 0 0 0 [.command 0xFFFF#16], _, _, rfl⟩

theorem witness_OnlyPortContention : ∃ s : State, ∀ a b rest, s.host ≠ .twoDrivers a b :: rest :=
  ⟨st 0 0 0 0 0 0 0 [.reset], by simp [st]⟩

theorem witness_ReservedModes : ∃ (s : State) (cw : CommandWord) (rest : List HostMove), s.host = .command cw :: rest ∧ 5 ≤ s.mode.toNat :=
  ⟨st 5 0 0 0 0 0 0 [.command 0x1008#16], _, _, rfl, by decide⟩

theorem witness_RoundTrip : (∃ i : Instr, i.wellFormed = true) ∧ ∃ (cw : CommandWord) (i : Instr), decode cw = .ok i :=
  ⟨⟨.push 0xFF#8, rfl⟩, ⟨0x20FF#16, .push 0xFF#8, by decide⟩⟩

theorem witness_OpcodeTable : (∃ (cw : CommandWord) (i : Instr), decode cw = .ok i) ∧
    ∃ cw : CommandWord, ∃ r ∈ opcodeTable, ∃ q ∈ opcodeTable, r.covers cw = true ∧ q.covers cw = true :=
  ⟨⟨0x10FF#16, .init 255#8, by decide⟩,
   0x3000#16, ⟨"PAD", 0x3000#16, 0xFFFF#16⟩, by decide, ⟨"PAD", 0x3000#16, 0xFFFF#16⟩, by decide, by decide, by decide⟩

/-- The greatest operands and characters of PseudoInstructionsExpand, with the words R69 gives them. -/
theorem witness_PseudoInstructions : (∃ text : List Char, text.all asciiChar = true ∧ text ≠ []) ∧ asciiChar (Char.ofNat 127) = true ∧
    Assembler.expand (.init 255) = [0x10FF#16] ∧ Assembler.expand (.push 255) = [0x20FF#16] ∧
    Assembler.expand (.pushChar (Char.ofNat 127)) = [0x207F#16] ∧ Assembler.expand (.word 65535) = [0xFFFF#16] :=
  ⟨⟨['A', Char.ofNat 127], by decide, by decide⟩, by decide, by decide, by decide, by decide, by decide⟩

/-- Log entry 14: no blank need stand between a mnemonic and its operand. -/
theorem test_assemble_without_blank :
    Assembler.assembleText ['I', 'N', 'I', 'T', '1', '6', '\n', 'P', 'U', 'S', 'H', '\'', 'A', '\''] = some [0x1010#16, 0x2041#16] := by decide

/-- The clauses of the INIT statements: every mode, every width, and operands beside the widths. -/
theorem witness_Init : (∃ s : State, s.mode = Mode.err) ∧ (∃ s : State, s.mode = Mode.accum) ∧ (∃ s : State, s.mode = Mode.padded) ∧
    (∃ s : State, s.mode = Mode.idle) ∧ (∃ s : State, s.mode = Mode.done) ∧
    (∀ w ∈ [7#8, 9#8, 15#8, 17#8, 31#8, 33#8, 0#8, 255#8], w ≠ 8#8 ∧ w ≠ 16#8 ∧ w ≠ 32#8) ∧
    (∀ w ∈ [7#8, 9#8, 15#8, 17#8, 31#8, 33#8, 0#8, 255#8], w.toNat ≠ 8 ∧ w.toNat ≠ 16 ∧ w.toNat ≠ 32) ∧
    (∃ (w : Byte) (sel : Selector), w = 32#8 ∧ sel = 2#2) :=
  ⟨⟨st 4 0 0 0 2 0 0 [], rfl⟩, ⟨st 1 0 0 0 0 0 0 [], rfl⟩, ⟨st 2 0 0 0 0 0 0 [], rfl⟩, ⟨st 0 0 0 0 0 0 0 [], rfl⟩,
   ⟨st 3 0 0 0 0 0 0 [], rfl⟩, by decide, by decide, ⟨32#8, 2#2, rfl, rfl⟩⟩

theorem witness_RunsStartIndependent : ∃ s r : State, Legal s ∧ Legal r ∧ (s.mode = Mode.idle ∨ s.mode = Mode.done) ∧
    (r.mode = Mode.idle ∨ r.mode = Mode.done) ∧ s.host = r.host ∧ s ≠ r :=
  ⟨_, _, legal_idle, legal_done [], .inl rfl, .inr rfl, rfl, by decide⟩

/-- The clauses of the PUSH statements: the two sides of MAXLEN, and every lane of the table. -/
theorem witness_Push : (∃ s : State, s.mode = Mode.accum ∧ 0xFFFFFFFC ≤ s.len.toNat ∧ s.len = 0xFFFFFFFC#32) ∧
    (∃ s : State, s.mode = Mode.accum ∧ s.len.toNat < 0xFFFFFFFC ∧ s.len = 0xFFFFFFFB#32) ∧
    (∃ s : State, s.mode = Mode.accum ∧ s.len.toNat < 0xFFFFFFFC ∧ s.wsel = 0#2) ∧
    (∀ n ∈ [0, 1], (st 1 1 0 n 0 0 0 []).mode = Mode.accum ∧ (st 1 1 0 n 0 0 0 []).wsel = 1#2 ∧
      (st 1 1 0 n 0 0 0 []).len.toNat % 2 = n) ∧
    (∀ n ∈ [0, 1, 2, 3], (st 1 2 0 n 0 0 0 []).mode = Mode.accum ∧ (st 1 2 0 n 0 0 0 []).wsel = 2#2 ∧
      (st 1 2 0 n 0 0 0 []).len.toNat % 4 = n) :=
  ⟨⟨st 1 2 0 0xFFFFFFFC 0 0 0 [], by decide⟩, ⟨st 1 2 0 0xFFFFFFFB 0 0 0 [], by decide⟩, ⟨st 1 0 0 0 0 0 0 [], by decide⟩,
   by decide, by decide⟩

theorem witness_LengthOverflow_bound : ∃ (b : Byte) (s t : State), s.len.toNat ≤ 0xFFFFFFFC ∧ exec (.push b) s = .next t :=
  ⟨0xFF#8, st 1 2 0 0xFFFFFFFC 0 0 0 [], _, by decide, rfl⟩

/-- The step clauses of LengthOverflowGuardsThePush: a represented buffer, and the moves that make LEN smaller. -/
theorem witness_LengthOverflow_step :
    (∃ s t buf, Legal s ∧ step s = .next t ∧ Represents s buf ∧ buf ≠ []) ∧
    (∀ m ∈ [HostMove.reset, .resetWithCommand 0x2041#16, .command (encode (.init Width.w8.operand))], ∃ s t, Legal s ∧
      step s = .next t ∧ s.host = [m] ∧ t.len.toNat < s.len.toNat) := by
  refine ⟨⟨_, _, _, represents_done.legal, rfl, represents_done, by decide⟩, fun m hm => ?_⟩
  simp only [List.mem_cons, List.not_mem_nil, or_false] at hm
  rcases hm with rfl | rfl | rfl <;> exact ⟨_, _, legal_done [_], rfl, rfl, by decide⟩

/-- The clauses of PadFillsTheLastWord: for each width every pad amount it can have, at lengths that give it. -/
theorem witness_Pad : ∀ c ∈ [(Width.w8, 0, 0), (.w8, 1, 0), (.w16, 0, 0), (.w16, 1, 1), (.w32, 0, 0), (.w32, 3, 1), (.w32, 2, 2), (.w32, 1, 3)],
    (st 1 c.1.selector.toNat 0 c.2.1 0 0 0 []).mode = Mode.accum ∧ (st 1 c.1.selector.toNat 0 c.2.1 0 0 0 []).wsel = c.1.selector ∧
    c.2.2 = (c.1.alignment - (st 1 c.1.selector.toNat 0 c.2.1 0 0 0 []).len.toNat % c.1.alignment) % c.1.alignment := by decide

theorem witness_PadNeverOverflows : ∃ (s : State) (w : Width), s.wsel = w.selector ∧ s.len.toNat ≤ 0xFFFFFFFC ∧
    (s.mode = Mode.accum ∨ s.mode = Mode.padded) :=
  ⟨st 1 2 0 0xFFFFFFF9 0 0 0 [], .w32, by decide⟩

theorem witness_SecondPad : ∃ (s t : State) (w : Width), s.wsel = w.selector ∧ (s.mode = Mode.accum ∨ s.mode = Mode.padded) ∧
    exec .pad s = .next t :=
  ⟨st 1 2 0x41000000 1 0 0 0 [], _, .w32, by decide, by decide, rfl⟩

theorem witness_PadEqualsPushes : ∃ (s : State) (w : Width) (p : Nat), Legal s ∧ s.mode = Mode.accum ∧ s.wsel = w.selector ∧
    p = (w.alignment - s.len.toNat % w.alignment) % w.alignment ∧ p = 2 :=
  ⟨_, .w32, 2, legal_accum [], by decide⟩

/-- The clauses of the SUM statements: each width, aligned and not. -/
theorem witness_Sum :
    (∃ s : State, (s.mode = Mode.accum ∨ s.mode = Mode.padded) ∧ s.wsel = Width.w32.selector ∧ s.len.toNat % Width.w32.alignment ≠ 0) ∧
    (∃ s : State, (s.mode = Mode.accum ∨ s.mode = Mode.padded) ∧ s.wsel = 2#2 ∧ s.len.toNat % 4 = 0) ∧
    (∃ s : State, (s.mode = Mode.accum ∨ s.mode = Mode.padded) ∧ s.wsel = 1#2 ∧ s.len.toNat % 2 = 0) ∧
    (∃ s : State, (s.mode = Mode.accum ∨ s.mode = Mode.padded) ∧ s.wsel = 0#2) :=
  ⟨⟨st 1 2 0 3 0 0 0 [], by decide⟩, ⟨st 1 2 0 4 0 0 0 [], by decide⟩, ⟨st 2 1 0 2 0 0 0 [], by decide⟩, ⟨st 1 0 0 1 0 0 0 [], by decide⟩⟩

theorem witness_AlignmentGuard : ∃ s : State, Legal s ∧ (s.mode = Mode.accum ∨ s.mode = Mode.padded) ∧ s.len.toNat % alignmentOf s.wsel ≠ 0 :=
  ⟨_, legal_accum [], .inl rfl, by decide⟩

theorem witness_FaultEntry : ∀ p ∈ [(FaultCode.illegalCommand, 1#3), (.protocol, 2#3), (.invalidWidth, 3#3), (.lengthOverflow, 4#3), (.alignment, 5#3)],
    (p.1 = .illegalCommand ∧ p.2 = 1#3) ∨ (p.1 = .protocol ∧ p.2 = 2#3) ∨ (p.1 = .invalidWidth ∧ p.2 = 3#3) ∨
      (p.1 = .lengthOverflow ∧ p.2 = 4#3) ∨ (p.1 = .alignment ∧ p.2 = 5#3) := by decide

theorem witness_Protocol : ∃ s : State, s.mode.toNat < 4 ∧ s.err = 0#3 := ⟨st 3 0 0 0 0 0 0 [], by decide⟩

theorem witness_ErrAbsorbing : (∃ (s : State) (cw : CommandWord) (rest : List HostMove), s.mode = Mode.err ∧ s.host = .command cw :: rest) ∧
    ∃ (s t : State) (k : Nat), s.mode = Mode.err ∧ (∀ m ∈ s.host.take k, ∃ cw, m = .command cw) ∧ k = 2 ∧ Core.run core k s = .next t :=
  ⟨⟨st 4 0 0 0 2 0 0 [.command 0#16], _, _, rfl, rfl⟩,
   st 4 0 0 0 2 0 0 [.command 0#16, .command 0x1008#16], _, 2, rfl, by simp [st], rfl, rfl⟩

/-- A word and a state for each clause of FaultPriority. -/
theorem witness_FaultPriority : decode 0x1018#16 = .ok (.init 24#8) ∧ decode 0x2041#16 = .ok (.push 0x41#8) ∧ decode 0x3000#16 = .ok .pad ∧
    decode 0x4000#16 = .ok .sum ∧ decode 0x2141#16 = .error .reservedBits ∧ (24#8).toNat ≠ 8 ∧ (24#8).toNat ≠ 16 ∧ (24#8).toNat ≠ 32 ∧
    (st 1 1 0 0xFFFFFFFF 0 0 0 []).mode = Mode.accum ∧ 0xFFFFFFFC ≤ (st 1 1 0 0xFFFFFFFF 0 0 0 []).len.toNat ∧
    (st 1 1 0 0xFFFFFFFF 0 0 0 []).len.toNat % alignmentOf (st 1 1 0 0xFFFFFFFF 0 0 0 []).wsel ≠ 0 := by decide

theorem witness_ModeTable : ∃ s : State, s.mode.toNat ≤ 4 ∧ s.mode = Mode.err := ⟨st 4 0 0 0 1 0 0 [], by decide⟩

theorem witness_Consolidated : (∃ (s : State) (cw : CommandWord) (rest : List HostMove), s.host = .command cw :: rest) ∧
    ∃ (s : State) (rest : List HostMove), s.host = .reset :: rest :=
  ⟨⟨st 1 2 0 1 0 0 0 [.command 0x3000#16], _, _, rfl⟩, ⟨st 1 2 0 1 0 0 0 [.reset], _, rfl⟩⟩

/-- The frames: for each command a state in which it faults and one in which it does not. -/
theorem witness_Frames :
    (∃ s t : State, exec (.init 24#8) s = .next t ∧ t.mode = Mode.err ∧ s.mode ≠ Mode.err) ∧
    (∃ s t : State, exec (.init 8#8) s = .next t ∧ t.mode ≠ Mode.err) ∧
    (∃ s t : State, exec (.push 8#8) s = .next t ∧ t.mode = Mode.err ∧ s.mode ≠ Mode.err) ∧
    (∃ s t : State, exec (.push 8#8) s = .next t ∧ t.mode ≠ Mode.err) ∧
    (∃ s t : State, exec .pad s = .next t ∧ t.mode = Mode.err ∧ s.mode ≠ Mode.err) ∧
    (∃ s t : State, exec .pad s = .next t ∧ t.mode ≠ Mode.err) ∧
    (∃ s t : State, exec .sum s = .next t ∧ t.mode = Mode.err ∧ s.mode ≠ Mode.err) ∧
    (∃ s t : State, exec .sum s = .next t ∧ t.mode ≠ Mode.err) :=
  ⟨⟨st 0 0 0 0 0 0 0 [], _, rfl, by decide⟩, ⟨st 0 0 0 0 0 0 0 [], _, rfl, by decide⟩,
   ⟨st 0 0 0 0 0 0 0 [], _, rfl, by decide⟩, ⟨st 1 0 0 0 0 0 0 [], _, rfl, by decide⟩,
   ⟨st 0 0 0 0 0 0 0 [], _, rfl, by decide⟩, ⟨st 1 1 0 1 0 0 0 [], _, rfl, by decide⟩,
   ⟨st 1 1 0 1 0 0 0 [], _, rfl, by decide⟩, ⟨st 1 1 0 2 0 0 0 [], _, rfl, by decide⟩⟩

theorem witness_ResultWriters : (∃ s t : State, step s = .next t ∧ t.value ≠ s.value) ∧ ∃ s t : State, step s = .next t ∧ t.length ≠ s.length :=
  ⟨⟨st 2 0 0x83 2 0 0 0 [.command 0x4000#16], _, rfl, by decide⟩, ⟨st 2 0 0x83 2 0 0 0 [.command 0x4000#16], _, rfl, by decide⟩⟩

theorem witness_ErrAndWselWriters :
    (∃ s t : State, step s = .next t ∧ (∀ rest, s.host ≠ .reset :: rest) ∧ (∀ cw rest, s.host ≠ .resetWithCommand cw :: rest) ∧ t.err ≠ s.err) ∧
    (∃ s t : State, step s = .next t ∧ (∀ rest, s.host ≠ .reset :: rest) ∧ (∀ cw rest, s.host ≠ .resetWithCommand cw :: rest) ∧ t.wsel ≠ s.wsel) :=
  ⟨⟨st 0 0 0 0 0 0 0 [.command 0#16], _, rfl, by simp [st], by simp [st], by decide⟩,
   ⟨st 0 0 0 0 0 0 0 [.command 0x1020#16], _, rfl, by simp [st], by simp [st], by decide⟩⟩

theorem witness_ResultLasts : ∃ s t : State, s.mode = Mode.done ∧ step s = .next t := ⟨st 3 0 0x83 2 0 0x83 2 [.idle], _, rfl, rfl⟩

theorem witness_ResultOnlyFromFinishedRun : ∃ (s t : State) (r : Value × Length), Legal s ∧ step s = .next t ∧ t.ports.result = some r :=
  ⟨_, _, _, legal_done [.idle], rfl, rfl⟩

theorem witness_StepKeepsLegal : ∃ s t : State, Legal s ∧ step s = .next t := ⟨_, _, legal_accum [.command 0x3000#16], rfl⟩

theorem witness_LaneSum : ∃ (w : Width) (buf : List Byte), buf.length % w.alignment = 0 ∧ buf.length = 8 :=
  ⟨.w32, [0xFF#8, 0xFF#8, 0xFF#8, 0xFF#8, 0#8, 0#8, 0#8, 2#8], by decide⟩

theorem witness_PadReference : ∃ (bytes : List Byte) (w : Width), bytes.length % w.alignment = 0 ∧
    (∃ i, i < bytes.length) ∧ ∃ (odd : List Byte) (i : Nat), i < (Reference.pad odd w).length ∧ odd.length ≤ i :=
  ⟨[1#8, 2#8], .w16, by decide, ⟨1, by decide⟩, [1#8], 1, by decide, by decide⟩

theorem witness_ChecksumReference : (∃ (bytes : List Byte) (w : Width) (v : Nat), Reference.checksum bytes w = some v) ∧
    ∃ (word rest : List Byte) (w : Width) (v : Nat), word.length = w.alignment ∧ Reference.checksum rest w = some v ∧ rest ≠ [] :=
  ⟨⟨[0xFF#8, 0xFF#8], .w16, _, rfl⟩, [0xFF#8, 0xFF#8], [0#8, 2#8], .w16, _, by decide, rfl, by decide⟩

theorem witness_WordsAreBigEndian : ∃ (w : Width) (word : List Byte), word.length = w.alignment ∧ w = .w32 :=
  ⟨.w32, [1#8, 2#8, 3#8, 4#8], by decide, rfl⟩

theorem witness_WholeRun : ∃ (s : State) (w : Width) (bytes : List Byte), Legal s ∧ (s.mode = Mode.idle ∨ s.mode = Mode.done) ∧
    (Reference.pad bytes w).length ≤ 0xFFFFFFFC ∧ bytes.length % w.alignment ≠ 0 :=
  ⟨_, .w32, [0x41#8, 0x42#8, 0x43#8], legal_done [], .inr rfl, by decide⟩

theorem witness_RunWithoutPad : ∃ (s : State) (w : Width) (bytes : List Byte), Legal s ∧ (s.mode = Mode.idle ∨ s.mode = Mode.done) ∧
    bytes.length ≤ 0xFFFFFFFC ∧ bytes.length % w.alignment = 0 ∧ bytes ≠ [] :=
  ⟨_, .w16, [0x41#8, 0x42#8], legal_idle, .inl rfl, by decide⟩

theorem witness_FaultFreeSequences : ∃ s : State, Legal s ∧ (s.mode = Mode.idle ∨ s.mode = Mode.done) := ⟨_, legal_idle, .inl rfl⟩

end Sys2Proof.Tests.Slice0
end

/-! PROOFS. The family 10_state.md: the reset values, the ports STATUS and WIDTH, and who writes VALUE, LENGTH, ERR and WSEL. -/

namespace Sys2Proof.Machine

/-! ## Ports -/

/-- STATUS[6:4] is ERR (10_state.md R30). -/
theorem State.statusPort_err (s : State) : s.statusPort.extractLsb' 4 3 = s.err := by
  have bits : ∀ (e : BitVec 3) (a : Bool) (m : BitVec 3), (0#1 ++ e ++ BitVec.ofBool a ++ m).extractLsb' 4 3 = e := by decide
  exact bits s.err s.aligned s.mode

/-- STATUS[7] is 0 (10_state.md R30). -/
theorem State.statusPort_top (s : State) : s.statusPort.getLsbD 7 = false := by
  have bit : ∀ (e : BitVec 3) (a : Bool) (m : BitVec 3), (0#1 ++ e ++ BitVec.ofBool a ++ m).getLsbD 7 = false := by decide
  exact bit s.err s.aligned s.mode

/-- With K = 1 every length is aligned (10_state.md R30). -/
theorem State.aligned_of_wsel_zero {s : State} (h : s.wsel = 0#2) : s.aligned = true := by
  have one : alignmentOf 0#2 = 1 := alignmentOf_selector .w8
  rw [State.aligned_iff, h, one, Nat.mod_one]

/-- WIDTH shows the number of bits of the selected width (10_state.md R31). -/
theorem State.widthPort_of_selector {s : State} {w : Width} (h : s.wsel = w.selector) :
    s.widthPort = BitVec.ofNat 6 w.bits := by
  rw [State.widthPort, h, widthOf_selector]

/-- The ports after reset (10_state.md R35). -/
theorem State.reset_ports : State.reset.ports = ⟨0x08#8, 8#6, 0#32, 0#32⟩ := by decide

/-- Settles O1: the registers are the reset state's own fields, the ports are computed from them. -/
theorem resetClearsEveryRegister : Obligations.ResetClearsEveryRegister :=
  ⟨rfl, rfl, rfl, rfl, rfl, rfl, rfl, State.reset_ports⟩

/-- Settles O16, field by field of the port. -/
theorem statusPortLayout : Obligations.StatusPortLayout := by
  refine ⟨fun s => ⟨s.statusPort_mode, ?_, s.statusPort_err, s.statusPort_top, fun h => ?_⟩,
    congrArg Ports.status State.reset_ports⟩
  · rw [State.statusPort_aligned, State.aligned_iff]
  · rw [State.statusPort_aligned, State.aligned_of_wsel_zero h]

/-- Settles O17: each selector value is a width's, and WIDTH shows that width's bits. -/
theorem widthPortShowsTheSelectedWidth : Obligations.WidthPortShowsTheSelectedWidth :=
  ⟨fun _ => ⟨State.widthPort_of_selector (w := .w8), State.widthPort_of_selector (w := .w16),
    State.widthPort_of_selector (w := .w32)⟩, congrArg Ports.width State.reset_ports⟩

/-! ## Who writes a register -/

/-- A decoded word is the encoding of its command: no other word decodes to it (30_encoding.md R63, R64). -/
theorem encode_of_decode {cw : CommandWord} {i : Instr} (h : decode cw = .ok i) : encode i = cw := by
  have word := Laws.Encoding.word_of_fields cw
  unfold decode at h
  split_ifs at h with hzero hinit hpush hpad hpad0 hsum hsum0 <;> cases h <;> rw [not_not.1 hzero] at word
  · rw [encode, ← hinit, word]
  · rw [encode, ← hpush, word]
  · rw [encode, ← hpad, ← hpad0, word]
  · rw [encode, ← hsum, ← hsum0, word]

/-- The operand of an accepted INIT is a width's number of bits (42_width_dispatch.md R112). -/
theorem exists_width_of_accepts_init {w : Byte} {s : State} (h : s.accepts (.init w) = true) :
    ∃ width : Width, w = width.operand := by
  simp only [State.accepts, Bool.and_eq_true] at h
  obtain ⟨width, named⟩ := Option.isSome_iff_exists.1 h.2
  exact ⟨width, widthOfOperand_eq_some.1 named⟩

/-- INIT of a width starts a run with that width's selector (42_width_dispatch.md R112). -/
theorem State.effect_init_operand (width : Width) (s : State) :
    s.effect (.init width.operand) = s.beginRun width.selector := by
  rw [State.effect, widthOfOperand_operand, Option.getD_some]

/-- The step took the reset input, with or without a word beside it (70_reset_and_hazards.md R150, R151). -/
def ResetStep (s t : State) : Prop :=
  ∃ rest, t = { State.reset with host := rest } ∧
    (s.host = .reset :: rest ∨ ∃ cw, s.host = .resetWithCommand cw :: rest)

/-- The step took the word of a command that was accepted, and had that command's effect (60_exceptions.md R138). -/
def AcceptedStep (i : Instr) (s t : State) : Prop :=
  ∃ rest, s.host = .command (encode i) :: rest ∧ s.accepts i = true ∧ t = State.effect i { s with host := rest }

/-- The step raised a fault on a command word, below ERR (60_exceptions.md R126). -/
def FaultStep (f : FaultCode) (s t : State) : Prop :=
  s.mode.toNat < 4 ∧ ∃ rest, t = State.raise f { s with host := rest }

/-- A step leaves the registers as they are, is a reset, raises a fault, or has the effect of an accepted command. -/
theorem step_kinds {s t : State} (h : step s = .next t) :
    (∃ rest, t = { s with host := rest }) ∨ ResetStep s t ∨ (∃ f, FaultStep f s t) ∨ ∃ i, AcceptedStep i s t := by
  rcases step_cases h with ⟨_, rfl⟩ | ⟨m, rest, hh, kept | ⟨ht, hm⟩ | ⟨hm, ⟨f, ht⟩, _⟩ | ⟨_, cw, i, rfl, hd, ha, ht⟩⟩
  · exact .inl ⟨_, rfl⟩
  · exact .inl ⟨rest, kept⟩
  · refine .inr (.inl ⟨rest, ht, ?_⟩)
    rcases hm with rfl | ⟨cw, rfl⟩
    · exact .inl hh
    · exact .inr ⟨cw, hh⟩
  · exact .inr (.inr (.inl ⟨f, (State.ignoresCommands_eq_false s).1 hm, rest, ht⟩))
  · exact .inr (.inr (.inr ⟨i, rest, by rw [encode_of_decode hd, hh], ha, ht⟩))

/-- What fault entry and the host's moves leave alone is changed by reset and by accepted commands only (10_state.md R36). -/
theorem reset_or_accepted_of_changed {α : Type} {reg : State → α} {s t : State} (h : step s = .next t)
    (kept_by_host : ∀ rest, reg { s with host := rest } = reg s) (kept_by_fault : ∀ f r, reg (State.raise f r) = reg r)
    (changed : reg t ≠ reg s) : ResetStep s t ∨ ∃ i, AcceptedStep i s t := by
  rcases step_kinds h with ⟨rest, rfl⟩ | reset | ⟨f, _, rest, rfl⟩ | accepted
  · exact absurd (kept_by_host rest) changed
  · exact .inl reset
  · exact absurd ((kept_by_fault f _).trans (kept_by_host rest)) changed
  · exact .inr accepted

/-- Only reset and fault entry change ERR (10_state.md R25). -/
theorem reset_or_fault_of_err_changed {s t : State} (h : step s = .next t) (changed : t.err ≠ s.err) :
    ResetStep s t ∨ ∃ f, FaultStep f s t := by
  rcases step_kinds h with ⟨_, rfl⟩ | reset | fault | ⟨i, _, _, _, rfl⟩
  · exact absurd rfl changed
  · exact .inl reset
  · exact .inr fault
  · exact absurd (State.effect_err i _) changed

/-- Settles O41: of the accepted commands PUSH and PAD keep the result, INIT clears it and SUM publishes it. -/
theorem onlySumInitAndResetWriteTheResult : Obligations.OnlySumInitAndResetWriteTheResult := by
  intro s t h changed
  have changed : (t.value, t.length) ≠ (s.value, s.length) := by
    rwa [ne_eq, Prod.mk.injEq, not_and_or]
  rcases reset_or_accepted_of_changed (reg := fun r => (r.value, r.length)) h (fun _ => rfl) (fun _ _ => rfl) changed with
    ⟨rest, rfl, reset | ⟨cw, reset⟩⟩ | ⟨i, rest, hh, _, rfl⟩
  · exact .inr (.inr ⟨.inl ⟨rest, reset⟩, rfl, rfl⟩)
  · exact .inr (.inr ⟨.inr ⟨cw, rest, reset⟩, rfl, rfl⟩)
  · cases i with
    | init w => exact .inr (.inl ⟨w, rest, hh, rfl, rfl, rfl⟩)
    | push b => exact absurd rfl changed
    | pad => simp [State.effect] at changed
    | sum => exact .inl ⟨rest, hh, rfl, rfl, rfl⟩

/-- Settles O42: ERR by the codes a fault can have, WSEL by the operand of the one accepted command that writes it, INIT. -/
theorem whoWritesErrAndWsel : Obligations.WhoWritesErrAndWsel := by
  intro s t h no_reset no_resetWithCommand
  have not_reset : ¬ ResetStep s t := by
    rintro ⟨rest, _, reset | ⟨cw, reset⟩⟩
    · exact no_reset rest reset
    · exact no_resetWithCommand cw rest reset
  refine ⟨fun changed => ?_, fun changed => ?_⟩
  · obtain ⟨f, below, _, rfl⟩ := (reset_or_fault_of_err_changed h changed).resolve_left not_reset
    exact ⟨below, rfl, f.code_bounds⟩
  · obtain ⟨i, rest, hh, ha, rfl⟩ :=
      (reset_or_accepted_of_changed (reg := State.wsel) h (fun _ => rfl) (fun _ _ => rfl) changed).resolve_left not_reset
    cases i with
    | init w =>
      obtain ⟨width, rfl⟩ := exists_width_of_accepts_init ha
      rw [State.effect_init_operand]
      exact ⟨width, rest, hh, rfl, rfl⟩
    | push b => exact absurd rfl changed
    | pad => simp [State.effect] at changed
    | sum => exact absurd rfl changed

end Sys2Proof.Machine

/-! PROOFS. The family 20_memory.md: the big-endian word, as shifts and as lane weights (R43). -/

namespace Sys2Proof.Machine

/-- A further byte shifts the word read so far into the next lane up. -/
theorem Reference.bigEndian_push (word : List Byte) (b : Byte) :
    Reference.bigEndian (word ++ [b]) = Reference.bigEndian word * 256 + b.toNat := by
  rw [Reference.bigEndian, List.foldl_concat, ← Reference.bigEndian]

/-- The same with the source's operators: a byte fits below the shifted word, so `|` is `+` (20_memory.md R43). -/
theorem Reference.bigEndian_push_eq_or (word : List Byte) (b : Byte) :
    Reference.bigEndian (word ++ [b]) = (Reference.bigEndian word <<< 8) ||| b.toNat := by
  rw [bigEndian_push, ← Nat.shiftLeft_add_eq_or_of_lt b.isLt, Nat.shiftLeft_eq]

@[simp] theorem Reference.bigEndian_singleton (a : Byte) : Reference.bigEndian [a] = a.toNat := by
  simp [Reference.bigEndian]

/-- The word of two bytes in the source's form (20_memory.md R43). -/
theorem Reference.bigEndian_pair (a b : Byte) : Reference.bigEndian [a, b] = (a.toNat <<< 8) ||| b.toNat := by
  rw [← bigEndian_singleton a]
  exact bigEndian_push_eq_or [a] b

/-- The word of four bytes in the source's form: each further byte shifts those before it (20_memory.md R43). -/
theorem Reference.bigEndian_quad (a b c d : Byte) : Reference.bigEndian [a, b, c, d] =
    (((a.toNat <<< 24) ||| (b.toNat <<< 16)) ||| (c.toNat <<< 8)) ||| d.toNat := by
  calc Reference.bigEndian [a, b, c, d] = (Reference.bigEndian [a, b, c] <<< 8) ||| d.toNat := bigEndian_push_eq_or [a, b, c] d
    _ = (((Reference.bigEndian [a, b] <<< 8) ||| c.toNat) <<< 8) ||| d.toNat := by rw [← bigEndian_push_eq_or [a, b] c]; rfl
    _ = _ := by simp only [bigEndian_pair, Nat.shiftLeft_or_distrib, ← Nat.shiftLeft_add]

/-- The bytes of an open word fill its upper lanes: the lanes still free are below them (20_memory.md R43). -/
theorem laneSum_of_length_le {k : Nat} {word : List Byte} (fits : word.length ≤ k) :
    laneSum k word = Reference.bigEndian word * 256 ^ (k - word.length) := by
  induction word using List.reverseRecOn with
  | nil => simp [Reference.bigEndian]
  | append_singleton word b ih =>
    rw [List.length_append, List.length_singleton] at fits ⊢
    have lane : k - 1 - word.length % k = k - (word.length + 1) := by
      rw [Nat.mod_eq_of_lt fits]
      omega
    have lanes : k - word.length = k - (word.length + 1) + 1 := by omega
    rw [laneSum_push, ih (by omega), Reference.bigEndian_push, lane, lanes, Nat.pow_mul]
    ring

/-- A whole word's lane sum is the word (20_memory.md R43). -/
theorem bigEndian_eq_laneSum {k : Nat} {word : List Byte} (whole : word.length = k) :
    Reference.bigEndian word = laneSum k word := by
  rw [laneSum_of_length_le whole.le, whole, Nat.sub_self, Nat.pow_zero, Nat.mul_one]

/-- Settles O54: shifting in one byte at a time gives both the source's forms and the lane weights. -/
theorem wordsAreBigEndian : Obligations.WordsAreBigEndian :=
  ⟨Reference.bigEndian_pair, Reference.bigEndian_quad, fun _ _ => bigEndian_eq_laneSum⟩

end Sys2Proof.Machine

/-! PROOFS. The family 40_pad.md: the padding function (R80, R81). -/

namespace Sys2Proof.Machine

/-- Padding goes up to a multiple of `k` (40_pad.md R81). -/
theorem Reference.padTo_length_mod {k : Nat} (hk : 0 < k) (bytes : List Byte) :
    (Reference.padTo k bytes).length % k = 0 := by
  have phase : bytes.length % k ≤ k := (Nat.mod_lt _ hk).le
  rw [Reference.padTo_length, Nat.add_mod_mod, ← Nat.mod_add_mod, Nat.add_sub_cancel' phase, Nat.mod_self]

/-- Padding keeps every byte of the buffer in its place (40_pad.md R81). -/
theorem Reference.padTo_getElem?_of_lt (k : Nat) {bytes : List Byte} {i : Nat} (inside : i < bytes.length) :
    (Reference.padTo k bytes)[i]? = bytes[i]? :=
  List.getElem?_append_left inside

/-- Past the buffer there is filler only (40_pad.md R81). -/
theorem Reference.padTo_getElem?_of_le {k : Nat} {bytes : List Byte} {i : Nat}
    (past : bytes.length ≤ i) (inside : i < (Reference.padTo k bytes).length) :
    (Reference.padTo k bytes)[i]? = some Config.filler := by
  rw [Reference.padTo_length] at inside
  rw [Reference.padTo, List.getElem?_append_right past, List.getElem?_replicate_of_lt (by omega)]

/-- An aligned buffer gets no filler (40_pad.md R81). -/
theorem Reference.padTo_of_aligned {k : Nat} {bytes : List Byte} (aligned : bytes.length % k = 0) :
    Reference.padTo k bytes = bytes := by
  rw [Reference.padTo, aligned, Nat.sub_zero, Nat.mod_self, List.replicate_zero, List.append_nil]

/-- Less than a word of filler is added (40_pad.md R81). -/
theorem Reference.padTo_length_sub_lt {k : Nat} (hk : 0 < k) (bytes : List Byte) :
    (Reference.padTo k bytes).length - bytes.length < k := by
  rw [Reference.padTo_length, Nat.add_sub_cancel_left]
  exact Nat.mod_lt _ hk

/-- Settles O52: a padded buffer, any buffer of one-byte words and the empty buffer are aligned, and an aligned buffer is its own padding. -/
theorem padReferenceProperties : Obligations.PadReferenceProperties := by
  intro bytes w
  have padded_aligned := Reference.padTo_length_mod w.alignment_pos bytes
  refine ⟨padded_aligned, fun _ => Reference.padTo_getElem?_of_lt _, fun _ inside past => Reference.padTo_getElem?_of_le past inside,
    Reference.padTo_of_aligned padded_aligned, Reference.padTo_of_aligned, Reference.padTo_of_aligned (Nat.mod_one _),
    Reference.padTo_of_aligned (Nat.zero_mod _), ?_⟩
  exact Nat.le_sub_one_of_lt (Reference.padTo_length_sub_lt w.alignment_pos bytes)

end Sys2Proof.Machine

/-! PROOFS. The family 41_checksum.md: PUSH, SUM and the reference checksum (R90 to R99). -/

namespace Sys2Proof.Machine

/-! ## A command that is ignored or faults leaves the ghost buffer -/

/-- In ERR commands are ignored (60_exceptions.md R128). -/
theorem State.ignores_of_err {s : State} (h : s.mode = Mode.err) : s.ignoresCommands = true := by
  rw [State.ignoresCommands_iff, h]
  decide

theorem ghostExec_of_not_accepts {i : Instr} {s : State} (buf : List Byte) (h : s.accepts i = false) :
    ghostExec i s buf = buf := by
  simp [ghostExec, h]

/-- In ERR a command leaves the state and the buffer. -/
theorem exec_ghostExec_of_err {i : Instr} {s : State} (buf : List Byte) (h : s.mode = Mode.err) :
    exec i s = .next s ∧ ghostExec i s buf = buf :=
  ⟨exec_ignored (State.ignores_of_err h),
    ghostExec_of_not_accepts buf (State.accepts_of_ignored (State.ignores_of_err h))⟩

/-- A command that is not accepted below ERR raises its fault and leaves the buffer. -/
theorem exec_ghostExec_of_fault {i : Instr} {s : State} {f : FaultCode} (buf : List Byte) (below : s.mode.toNat < 4)
    (h : s.accepts i = false) (fault : s.faultOf i = f) : exec i s = .next (s.raise f) ∧ ghostExec i s buf = buf :=
  ⟨fault ▸ exec_faults (State.not_ignores_of_mode below) h, ghostExec_of_not_accepts buf h⟩

/-! ## PUSH -/

/-- PUSH adds its byte in ACCUM below MAXLEN, and nowhere else (41_checksum.md R92). -/
theorem State.accepts_push_iff {b : Byte} {s : State} :
    s.accepts (.push b) = true ↔ s.mode = Mode.accum ∧ s.len.toNat < 0xFFFFFFFC := by
  simp [State.accepts, Config.maxLen, BitVec.lt_def]

/-- `lane_add` in natural numbers, for any K (41_checksum.md R93). -/
theorem State.laneAdd_eq_ofNat (b : Byte) (s : State) :
    s.laneAdd b = { s with
      acc := BitVec.ofNat 64 (s.acc.toNat + b.toNat * 2 ^ s.laneShift)
      len := BitVec.ofNat 32 (s.len.toNat + 1) } := by
  have acc : (s.laneAdd b).acc = BitVec.ofNat 64 (s.acc.toNat + b.toNat * 2 ^ s.laneShift) := by
    apply BitVec.eq_of_toNat_eq
    rw [State.laneAdd_acc_toNat, BitVec.toNat_ofNat]
  have len : (s.laneAdd b).len = BitVec.ofNat 32 (s.len.toNat + 1) := by
    apply BitVec.eq_of_toNat_eq
    simp [BitVec.toNat_add]
  rw [← acc, ← len]
  rfl

/-- STATUS[3] after one more byte (41_checksum.md R92). -/
theorem State.laneAdd_statusPort_aligned {b : Byte} {s : State} (room : s.len.toNat < 0xFFFFFFFC) :
    (s.laneAdd b).statusPort.getLsbD 3 = true ↔ (s.len.toNat + 1) % alignmentOf s.wsel = 0 := by
  rw [State.statusPort_aligned, State.aligned_iff, State.laneAdd_len_toNat (by omega), State.laneAdd_wsel]

/-- A PUSH in ACCUM from MAXLEN on raises LengthOverflow (41_checksum.md R95). -/
theorem exec_ghostExec_push_of_full {b : Byte} {s : State} (buf : List Byte) (accum : s.mode = Mode.accum)
    (full : 0xFFFFFFFC ≤ s.len.toNat) :
    exec (.push b) s = .next (s.raise .lengthOverflow) ∧ ghostExec (.push b) s buf = buf := by
  have refused : s.accepts (.push b) = false := by
    rw [← Bool.not_eq_true, State.accepts_push_iff]
    omega
  exact exec_ghostExec_of_fault buf (by simp [accum]) refused (if_pos accum)

/-- Settles O21: PUSH is accepted in ACCUM below MAXLEN and adds its byte; elsewhere it is ignored or raises the fault of its mode. -/
theorem pushAddsOneInputByte : Obligations.PushAddsOneInputByte := by
  intro b s buf
  refine ⟨exec_ghostExec_of_err buf, fun closed => ?_, fun accum full => ?_, fun accum room => ?_⟩
  · have not_accum : s.mode ≠ Mode.accum := by rcases closed with h | h | h <;> simp [h]
    have below : s.mode.toNat < 4 := by rcases closed with h | h | h <;> simp [h]
    have refused : s.accepts (.push b) = false := by
      rw [← Bool.not_eq_true, State.accepts_push_iff]
      exact fun h => not_accum h.1
    exact exec_ghostExec_of_fault buf below refused (if_neg not_accum)
  · exact exec_ghostExec_push_of_full buf accum full
  · have accepted : s.accepts (.push b) = true := State.accepts_push_iff.2 ⟨accum, room⟩
    exact ⟨s.laneAdd b, exec_accepted accepted, State.laneAdd_eq_ofNat b s, State.laneAdd_statusPort_aligned room,
      by simp [ghostExec, accepted]⟩

/-! ## LEN and the ghost buffer over a step -/

/-- An accepted PUSH counts one byte, with no wrap (41_checksum.md R95). -/
theorem State.effect_push_len_toNat {b : Byte} {s : State} (h : s.accepts (.push b) = true) :
    (s.effect (.push b)).len.toNat = s.len.toNat + 1 :=
  State.laneAdd_len_toNat (by have := (State.accepts_push_iff.1 h).2; omega)

/-- MAXLEN is a multiple of K, so that the next word boundary is not above it (40_pad.md R84). -/
theorem State.len_add_padAmount_le {s : State} {w : Width} (hw : s.wsel = w.selector) (le : s.len.toNat ≤ 0xFFFFFFFC) :
    s.len.toNat + s.padAmount ≤ 0xFFFFFFFC := by
  rw [State.padAmount_of_selector hw]
  cases w <;> simp <;> omega

/-- PAD counts its filler bytes, with no wrap (40_pad.md R84). -/
theorem State.effect_pad_len_toNat {s : State} {w : Width} (hw : s.wsel = w.selector) (le : s.len.toNat ≤ 0xFFFFFFFC) :
    (s.effect .pad).len.toNat = s.len.toNat + s.padAmount := by
  have bound := State.len_add_padAmount_le hw le
  rw [State.effect, State.closeInput_len, State.fill_len, BitVec.toNat_add, BitVec.toNat_ofNat]
  omega

/-- An accepted command opens a fresh run or loses none of the LEN bytes, and LEN stays at most MAXLEN (41_checksum.md R95). -/
theorem State.effect_len_cases {i : Instr} {s : State} {w : Width} (hw : s.wsel = w.selector)
    (le : s.len.toNat ≤ 0xFFFFFFFC) (h : s.accepts i = true) :
    ((∃ width : Width, i = .init width.operand) ∧ (s.effect i).len = 0#32) ∨
      (s.len.toNat ≤ (s.effect i).len.toNat ∧ (s.effect i).len.toNat ≤ 0xFFFFFFFC) := by
  cases i with
  | init operand =>
    obtain ⟨width, rfl⟩ := exists_width_of_accepts_init h
    exact .inl ⟨⟨width, rfl⟩, rfl⟩
  | push b =>
    have room := (State.accepts_push_iff.1 h).2
    rw [State.effect_push_len_toNat h]
    omega
  | pad =>
    have bound := State.len_add_padAmount_le hw le
    rw [State.effect_pad_len_toNat hw le]
    omega
  | sum => exact .inr ⟨Nat.le_refl _, le⟩

/-- Every step from a legal state keeps LEN at most MAXLEN and makes it smaller only to 0, by reset or by INIT of a width
(41_checksum.md R95). -/
theorem step_len_cases {s t : State} (legal : Legal s) (h : step s = .next t) :
    (t.len = 0#32 ∧ (ResetStep s t ∨ ∃ width : Width, AcceptedStep (.init width.operand) s t)) ∨
      (s.len.toNat ≤ t.len.toNat ∧ t.len.toNat ≤ 0xFFFFFFFC) := by
  rcases step_kinds h with ⟨_, rfl⟩ | reset | ⟨_, _, _, rfl⟩ | ⟨i, accepted⟩
  · exact .inr ⟨Nat.le_refl _, legal.len_le⟩
  · have ⟨_, ht, _⟩ := reset
    exact .inl ⟨congrArg (·.len) ht, .inl reset⟩
  · exact .inr ⟨Nat.le_refl _, legal.len_le⟩
  · have ⟨rest, _, accepts, ht⟩ := accepted
    obtain ⟨w, hw⟩ := exists_width_of_selector legal.wsel_le
    have same_len : t.len = (s.effect i).len :=
      congrArg (·.len) (ht.trans (State.effect_setHost i rest s))
    rw [same_len]
    rcases State.effect_len_cases hw legal.len_le accepts with ⟨⟨width, rfl⟩, zero⟩ | grown
    · exact .inl ⟨zero, .inr ⟨width, accepted⟩⟩
    · exact .inr grown

theorem ghostExec_setHost (i : Instr) (h : List HostMove) (s : State) (buf : List Byte) :
    ghostExec i (s.setHost h) buf = ghostExec i s buf := by
  cases i <;> rfl

/-- The rule for a relation of the state with its ghost buffer (10_state.md R34): every step keeps it that reset establishes and that
the host's moves, fault entry and the accepted commands keep. -/
theorem step_keeps_ghost_relation {R : State → List Byte → Prop} (reset : R State.reset [])
    (host : ∀ {s buf} (h : List HostMove), R s buf → R (s.setHost h) buf)
    (fault : ∀ {s buf} (f : FaultCode), s.ignoresCommands = false → R s buf → R (s.raise f) buf)
    (effect : ∀ {s buf} {i : Instr}, s.accepts i = true → R s buf → R (s.effect i) (ghostExec i s buf))
    {s t : State} {buf : List Byte} (h : step s = .next t) (related : R s buf) : R t (ghostStep s buf) := by
  cases hh : s.host with
  | nil =>
    rw [step_nil hh] at h
    cases h
    rwa [ghostStep, hh]
  | cons m rest =>
    rw [step_cons hh] at h
    rw [ghostStep, hh]
    have moved := host rest related
    cases m with
    | idle => cases h; exact moved
    | reset => cases h; exact host rest reset
    | resetWithCommand cw => cases h; exact host rest reset
    | twoDrivers a b => cases h
    | command cw =>
      rw [perform] at h
      cases hd : decode cw with
      | error e =>
        simp only [ghostPerform, hd]
        rw [runWord_error hd, execIllegal] at h
        split at h <;> cases h
        · exact moved
        · rename_i below
          exact fault _ (Bool.not_eq_true _ ▸ below) moved
      | ok i =>
        simp only [ghostPerform, hd]
        rw [runWord_ok hd] at h
        rw [← ghostExec_setHost i rest]
        rcases exec_cases i (s.setHost rest) with ⟨hm, e⟩ | ⟨hm, ha, e⟩ | ⟨_, ha, e⟩ <;> cases h.symm.trans e
        · rwa [ghostExec_of_not_accepts buf (State.accepts_of_ignored hm)]
        · rw [ghostExec_of_not_accepts buf ha]
          exact fault _ hm moved
        · exact effect ha moved

/-- LEN is the number of bytes in the ghost buffer, at most MAXLEN, under a width's selector (10_state.md R34 items 1 and 8). -/
structure CountsBytes (s : State) (buf : List Byte) : Prop where
  selector : ∃ w : Width, s.wsel = w.selector
  len_le : s.len.toNat ≤ 0xFFFFFFFC
  len_eq : s.len.toNat = buf.length

/-- An accepted command's writes of LEN and of the buffer agree. -/
theorem effect_keeps_countsBytes {i : Instr} {s : State} {buf : List Byte} (h : s.accepts i = true)
    (counts : CountsBytes s buf) : CountsBytes (s.effect i) (ghostExec i s buf) := by
  obtain ⟨⟨w, hw⟩, le, eq⟩ := counts
  have bound : (s.effect i).len.toNat ≤ 0xFFFFFFFC := by
    rcases State.effect_len_cases hw le h with ⟨_, zero⟩ | ⟨_, bound⟩
    · simp [zero]
    · exact bound
  unfold ghostExec
  rw [if_pos h]
  cases i with
  | init operand => exact ⟨⟨_, rfl⟩, bound, rfl⟩
  | push b => exact ⟨⟨w, hw⟩, bound, by rw [State.effect_push_len_toNat h, eq, List.length_append, List.length_singleton]⟩
  | pad =>
    refine ⟨⟨w, by simp [State.effect, hw]⟩, bound, ?_⟩
    rw [State.effect_pad_len_toNat hw le, State.padAmount, State.phase, eq, Reference.padTo_length]
  | sum => exact ⟨⟨w, hw⟩, le, eq⟩

/-- Every step keeps LEN the number of bytes in the ghost buffer (10_state.md R34 item 1). -/
theorem step_keeps_countsBytes {s t : State} {buf : List Byte} (h : step s = .next t) (counts : CountsBytes s buf) :
    CountsBytes t (ghostStep s buf) :=
  step_keeps_ghost_relation ⟨⟨.w8, rfl⟩, by decide, rfl⟩
    (fun _ ⟨selector, len_le, len_eq⟩ => ⟨selector, len_le, len_eq⟩)
    (fun _ _ ⟨selector, len_le, len_eq⟩ => ⟨selector, len_le, len_eq⟩) effect_keeps_countsBytes h counts

theorem Represents.countsBytes {s : State} {buf : List Byte} (h : Represents s buf) : CountsBytes s buf :=
  ⟨exists_width_of_selector h.legal.wsel_le, h.legal.len_le, h.len_eq⟩

/-- A PUSH from a LEN of at most MAXLEN leaves LEN or counts one byte (41_checksum.md R95). -/
theorem exec_push_len {b : Byte} {s t : State} (le : s.len.toNat ≤ 0xFFFFFFFC) (h : exec (.push b) s = .next t) :
    t.len.toNat ≤ 0xFFFFFFFC ∧ (t.len = s.len ∨ t.len.toNat = s.len.toNat + 1) := by
  rcases exec_cases (.push b) s with ⟨_, e⟩ | ⟨_, _, e⟩ | ⟨_, accepted, e⟩ <;> cases h.symm.trans e
  · exact ⟨le, .inl rfl⟩
  · exact ⟨le, .inl rfl⟩
  · have room := (State.accepts_push_iff.1 accepted).2
    rw [State.effect_push_len_toNat accepted]
    exact ⟨room, .inr rfl⟩

/-- Settles O23: the fault at MAXLEN is PUSH's own; the bounds follow from what a step can do to LEN and from LEN counting the
buffer's bytes. -/
theorem lengthOverflowGuardsThePush : Obligations.LengthOverflowGuardsThePush := by
  refine ⟨fun b s accum full => ?_, fun _ _ _ => exec_push_len, fun s t legal h => ⟨?_, fun buf repr => ?_, fun less => ?_⟩⟩
  · exact (exec_ghostExec_push_of_full [] accum (by simp [full])).1
  · rcases step_len_cases legal h with ⟨zero, _⟩ | ⟨_, bound⟩
    · simp [zero]
    · exact bound
  · have counts := step_keeps_countsBytes h repr.countsBytes
    exact counts.len_eq ▸ counts.len_le
  · obtain ⟨zero, writer⟩ := (step_len_cases legal h).resolve_right (by omega)
    refine ⟨zero, ?_⟩
    rcases writer with ⟨rest, _, reset | ⟨cw, reset⟩⟩ | ⟨width, rest, init, _⟩
    · exact .inl ⟨rest, reset⟩
    · exact .inr (.inl ⟨cw, rest, reset⟩)
    · exact .inr (.inr ⟨width, rest, init⟩)

/-! ## SUM -/

/-- An open run with a whole number of words is summed (41_checksum.md R97). -/
theorem exec_sum_of_aligned {s : State} (run_open : s.mode = Mode.accum ∨ s.mode = Mode.padded)
    (aligned : s.len.toNat % alignmentOf s.wsel = 0) : exec .sum s = .next s.publish :=
  exec_accepted (i := .sum) (by
    rw [State.accepts, (State.runOpen_iff s).2 run_open, (State.aligned_iff s).2 aligned]
    rfl)

/-- An open run with a misaligned length raises Alignment (41_checksum.md R98). -/
theorem exec_sum_of_misaligned {s : State} (run_open : s.mode = Mode.accum ∨ s.mode = Mode.padded)
    (misaligned : s.len.toNat % alignmentOf s.wsel ≠ 0) : exec .sum s = .next (s.raise .alignment) := by
  have is_open := (State.runOpen_iff s).2 run_open
  have not_aligned : s.aligned = false := by rwa [← Bool.not_eq_true, State.aligned_iff]
  have refused : s.accepts .sum = false := by rw [State.accepts, not_aligned, Bool.and_false]
  have fault : s.faultOf .sum = .alignment := if_pos is_open
  rw [exec_faults (State.not_ignores_of_runOpen is_open) refused, fault]

/-- With no run open SUM raises Protocol, aligned or not (41_checksum.md R97). -/
theorem exec_sum_of_betweenRuns {s : State} (between : s.mode = Mode.idle ∨ s.mode = Mode.done) :
    exec .sum s = .next (s.raise .protocol) := by
  have not_open : s.runOpen = false := by
    rw [← Bool.not_eq_true, State.runOpen_iff]
    rcases between with h | h <;> simp [h]
  have below : s.mode.toNat < 4 := by rcases between with h | h <;> simp [h]
  have refused : s.accepts .sum = false := by rw [State.accepts, not_open, Bool.false_and]
  have fault : s.faultOf .sum = .protocol := by rw [State.faultOf, not_open]; rfl
  rw [exec_faults (State.not_ignores_of_mode below) refused, fault]

/-- The published value as a number modulo 2^W (41_checksum.md R99). -/
theorem State.maskedSum_eq_ofNat {s : State} {w : Width} (hw : s.wsel = w.selector) :
    s.maskedSum = BitVec.ofNat 32 (s.acc.toNat % 2 ^ w.bits) := by
  rw [← maskedSum_toNat hw, BitVec.ofNat_toNat, BitVec.setWidth_eq]

/-- Settles O28, mode by mode and for the two kinds of length. -/
theorem sumPublishesTheMaskedSum : Obligations.SumPublishesTheMaskedSum := by
  intro s
  refine ⟨fun err => exec_ignored (State.ignores_of_err err), exec_sum_of_betweenRuns, fun run_open w hw => ?_⟩
  rw [← alignmentOf_selector, ← hw]
  refine ⟨exec_sum_of_misaligned run_open, fun aligned => ⟨s.publish, exec_sum_of_aligned run_open aligned, ?_, ?_⟩⟩
  · rw [← State.maskedSum_eq_ofNat hw]
    rfl
  · rw [State.statusPort_aligned, State.aligned_iff]
    exact aligned

/-- The low W bits of the published value are the accumulator's (41_checksum.md R99). -/
theorem State.maskedSum_low {s : State} {w : Width} (hw : s.wsel = w.selector) :
    s.maskedSum.extractLsb' 0 w.bits = s.acc.extractLsb' 0 w.bits := by
  apply BitVec.eq_of_toNat_eq
  rw [BitVec.extractLsb'_toNat, BitVec.extractLsb'_toNat, maskedSum_toNat hw, Nat.shiftRight_zero, Nat.shiftRight_zero,
    Nat.mod_mod]

/-- Above its low W bits the published value is 0 (41_checksum.md R99). -/
theorem State.maskedSum_high {s : State} {w : Width} (hw : s.wsel = w.selector) (n : Nat) :
    s.maskedSum.extractLsb' w.bits n = 0#n := by
  have small : s.acc.toNat % 2 ^ w.bits < 2 ^ w.bits := Nat.mod_lt _ (by positivity)
  apply BitVec.eq_of_toNat_eq
  rw [BitVec.extractLsb'_toNat, maskedSum_toNat hw, Nat.shiftRight_eq_div_pow, Nat.div_eq_of_lt small, Nat.zero_mod]
  rfl

/-- Settles O29: the low bits are kept for each width, and there are none above the 32 of the widest. -/
theorem maskKeepsTheLowBitsOnly : Obligations.MaskKeepsTheLowBitsOnly := by
  intro s run_open
  have answers (w : Width) (hw : s.wsel = w.selector) (aligned : s.len.toNat % w.alignment = 0) :
      exec .sum s = .next s.publish :=
    exec_sum_of_aligned run_open (by rwa [hw, alignmentOf_selector])
  refine ⟨fun hw aligned => ⟨_, answers .w32 hw aligned, ?_⟩,
    fun hw aligned => ⟨_, answers .w16 hw aligned, State.maskedSum_low (w := .w16) hw, State.maskedSum_high (w := .w16) hw 16⟩,
    fun hw => ⟨_, answers .w8 hw (Nat.mod_one _), State.maskedSum_low (w := .w8) hw, State.maskedSum_high (w := .w8) hw 24⟩⟩
  rw [← BitVec.extractLsb'_eq_self (x := s.publish.value)]
  exact State.maskedSum_low (w := .w32) hw

/-- PAD from an open run, then SUM, publishes (41_checksum.md R98; 40_pad.md R81). -/
theorem exec_sum_after_pad {s : State} {w : Width} (hw : s.wsel = w.selector) :
    exec .sum (s.effect .pad) = .next (s.effect .pad).publish := by
  refine exec_sum_of_aligned (.inr rfl) ?_
  rw [State.effect, State.closeInput_wsel, State.fill_wsel, hw, alignmentOf_selector]
  exact State.fill_aligned hw

/-- Settles O30: width 8 and the mode PADDED are never misaligned, and PAD makes any open run aligned. -/
theorem alignmentGuardOnSum : Obligations.AlignmentGuardOnSum := by
  intro s legal run_open
  refine ⟨fun misaligned => ?_, ?_⟩
  · obtain ⟨no_value, no_length⟩ := legal.no_result (by rcases run_open with h | h <;> simp [h])
    exact ⟨exec_sum_of_misaligned run_open misaligned, no_value, no_length,
      fun w8 => misaligned ((State.aligned_iff s).1 (State.aligned_of_wsel_zero w8)),
      run_open.resolve_right fun padded => misaligned (legal.padded_aligned padded)⟩
  · obtain ⟨w, hw⟩ := exists_width_of_selector legal.wsel_le
    have no_fault : s.err = 0#3 := by
      by_contra fault
      have := legal.err_iff.2 fault
      rcases run_open with h | h <;> simp [h] at this
    refine ⟨s.effect .pad, _, exec_accepted (i := .pad) ((State.runOpen_iff s).2 run_open), exec_sum_after_pad hw, rfl, ?_⟩
    rw [State.publish_err, State.effect_err, no_fault]

/-! ## The reference checksum -/

/-- A value exists for a whole number of words, their sum modulo 2^W (41_checksum.md R90). -/
theorem Reference.checksum_eq_some_iff {bytes : List Byte} {w : Width} {v : Nat} :
    Reference.checksum bytes w = some v ↔ bytes.length % w.alignment = 0 ∧
      wordSum w.alignment (bytes.length / w.alignment) bytes % 2 ^ w.bits = v := by
  rw [Reference.checksum]
  split <;> simp [*]

/-- With words of one byte the word sum is the sum of the bytes (41_checksum.md R91). -/
theorem Reference.wordSum_one (bytes : List Byte) :
    Reference.wordSum 1 bytes.length bytes = (bytes.map BitVec.toNat).sum := by
  induction bytes with
  | nil => rfl
  | cons b bytes ih => simp [Reference.wordSum, ih]

/-- A further word in front adds its number to the word sum (41_checksum.md R90). -/
theorem Reference.wordSum_append_word {k : Nat} {word : List Byte} (whole : word.length = k) (n : Nat) (rest : List Byte) :
    Reference.wordSum k (n + 1) (word ++ rest) = Reference.bigEndian word + Reference.wordSum k n rest := by
  rw [Reference.wordSum, List.take_left' whole, List.drop_left' whole]

/-- A further word in front adds its number to the checksum (41_checksum.md R91). -/
theorem Reference.checksum_append_word {word rest : List Byte} {w : Width} {v : Nat} (whole : word.length = w.alignment)
    (h : Reference.checksum rest w = some v) :
    Reference.checksum (word ++ rest) w = some ((Reference.bigEndian word + v) % 2 ^ w.bits) := by
  obtain ⟨aligned, rfl⟩ := Reference.checksum_eq_some_iff.1 h
  have words : (word ++ rest).length / w.alignment = rest.length / w.alignment + 1 := by
    rw [List.length_append, whole, Nat.add_div_left _ w.alignment_pos]
  refine Reference.checksum_eq_some_iff.2 ⟨?_, ?_⟩
  · rw [List.length_append, whole, Nat.add_mod_left, aligned]
  · rw [words, Reference.wordSum_append_word whole, Nat.add_mod_mod]

/-- Settles O53: all properties are read off the words of the buffer. -/
theorem checksumReferenceProperties : Obligations.ChecksumReferenceProperties := by
  refine ⟨fun bytes => ?_, fun bytes w v h => ?_, fun w => ?_, fun bytes w => ?_, fun _ _ _ _ => Reference.checksum_append_word⟩
  · refine Reference.checksum_eq_some_iff.2 ⟨Nat.mod_one _, ?_⟩
    rw [Width.alignment_w8, Nat.div_one, Reference.wordSum_one]
    rfl
  · obtain ⟨_, rfl⟩ := Reference.checksum_eq_some_iff.1 h
    exact Nat.mod_lt _ (by positivity)
  · refine Reference.checksum_eq_some_iff.2 ⟨Nat.zero_mod _, ?_⟩
    rw [List.length_nil, Nat.zero_div, Reference.wordSum, Nat.zero_mod]
  · simp only [Option.isSome_iff_exists, Reference.checksum_eq_some_iff, exists_and_left, exists_eq', and_true]

end Sys2Proof.Machine

/-! PROOFS. The family 42_width_dispatch.md: INIT, the command that selects the width (R112, R113). -/

namespace Sys2Proof.Machine

/-- A run open refuses INIT with Protocol, before the operand is looked at (42_width_dispatch.md R112; 60_exceptions.md R129). -/
theorem exec_ghostExec_init_of_runOpen {w : Byte} {s : State} (buf : List Byte)
    (run_open : s.mode = Mode.accum ∨ s.mode = Mode.padded) :
    exec (.init w) s = .next (s.raise .protocol) ∧ ghostExec (.init w) s buf = buf := by
  have not_between : s.betweenRuns = false := by
    rw [← Bool.not_eq_true, State.betweenRuns_iff]
    rcases run_open with h | h <;> simp [h]
  have below : s.mode.toNat < 4 := by rcases run_open with h | h <;> simp [h]
  have refused : s.accepts (.init w) = false := by rw [State.accepts, not_between, Bool.false_and]
  have fault : s.faultOf (.init w) = .protocol := by rw [State.faultOf, not_between]; rfl
  exact exec_ghostExec_of_fault buf below refused fault

/-- Between runs an operand that names no width raises InvalidWidth (42_width_dispatch.md R113). -/
theorem exec_ghostExec_init_of_noWidth {w : Byte} {s : State} (buf : List Byte)
    (between : s.mode = Mode.idle ∨ s.mode = Mode.done) (no_width : widthOfOperand w = none) :
    exec (.init w) s = .next (s.raise .invalidWidth) ∧ ghostExec (.init w) s buf = buf := by
  have below : s.mode.toNat < 4 := by rcases between with h | h <;> simp [h]
  have refused : s.accepts (.init w) = false := by rw [State.accepts, no_width, Option.isSome_none, Bool.and_false]
  exact exec_ghostExec_of_fault buf below refused (if_pos ((State.betweenRuns_iff s).2 between))

/-- Between runs a width's operand starts a run of that width with an empty buffer (42_width_dispatch.md R112). -/
theorem exec_ghostExec_init_of_width {s : State} (buf : List Byte) (width : Width)
    (between : s.mode = Mode.idle ∨ s.mode = Mode.done) :
    exec (.init width.operand) s = .next (s.beginRun width.selector) ∧ ghostExec (.init width.operand) s buf = [] := by
  have accepted : s.accepts (.init width.operand) = true := by
    rw [State.accepts, (State.betweenRuns_iff s).2 between, widthOfOperand_operand]
    rfl
  exact ⟨by rw [exec_accepted accepted, State.effect_init_operand], if_pos accepted⟩

/-- A fresh run is aligned, for any selector: 0 is a multiple of every K (42_width_dispatch.md R112). -/
theorem State.beginRun_statusPort_aligned (sel : Selector) (s : State) : (s.beginRun sel).statusPort.getLsbD 3 = true := by
  rw [State.statusPort_aligned, State.aligned_iff]
  exact Nat.zero_mod _

/-- Settles O18, mode by mode, and between runs for an operand that names no width and for one that names a width. -/
theorem initSelectsWidthAndOpensRun : Obligations.InitSelectsWidthAndOpensRun := by
  intro w s buf
  refine ⟨exec_ghostExec_of_err buf, exec_ghostExec_init_of_runOpen buf,
    fun between => ⟨fun not8 not16 not32 => ?_, fun sel named => ?_⟩⟩
  · exact exec_ghostExec_init_of_noWidth buf between (widthOfOperand_eq_none.2 ⟨not8, not16, not32⟩)
  · obtain ⟨width, rfl, rfl⟩ : ∃ width : Width, w = width.operand ∧ sel = width.selector := by
      rcases named with named | named | named
      exacts [⟨.w8, named⟩, ⟨.w16, named⟩, ⟨.w32, named⟩]
    obtain ⟨runs, emptied⟩ := exec_ghostExec_init_of_width buf width between
    exact ⟨_, runs, rfl, State.beginRun_statusPort_aligned _ s, emptied⟩

/-- Settles O19: an operand that is none of the three numbers names no width, and the ten listed are such operands. -/
theorem invalidWidthFaultsAndKeepsTheRest : Obligations.InvalidWidthFaultsAndKeepsTheRest := by
  have listed : ∀ w ∈ [0#8, 1#8, 7#8, 9#8, 24#8, 31#8, 33#8, 64#8, 128#8, 255#8], widthOfOperand w = none := by decide
  refine ⟨fun w s between not8 not16 not32 => (exec_ghostExec_init_of_noWidth [] between ?_).1,
    fun s between w mem => (exec_ghostExec_init_of_noWidth [] between (listed w mem)).1⟩
  exact widthOfOperand_eq_none.2
    ⟨ne_of_apply_ne BitVec.toNat not8, ne_of_apply_ne BitVec.toNat not16, ne_of_apply_ne BitVec.toNat not32⟩

end Sys2Proof.Machine

/-! PROOFS. The family 60_exceptions.md: fault entry (R126), the two checks before the operand (R121, R122, R129), the absorbing mode ERR
(R128) and the transition table of the mode machine (R138). -/

namespace Sys2Proof.Machine

/-! ## Fault entry -/

/-- STATUS after fault entry (60_exceptions.md R126). -/
theorem State.raise_statusPort (f : FaultCode) (s : State) : (s.raise f).statusPort =
    0x04#8 ||| ((BitVec.ofBool s.aligned).setWidth 8 <<< 3) ||| (f.code.setWidth 8 <<< 4) := by
  have fields : ∀ (c : ErrCode) (a : Bool), 0#1 ++ c ++ BitVec.ofBool a ++ Mode.err =
      0x04#8 ||| ((BitVec.ofBool a).setWidth 8 <<< 3) ||| (c.setWidth 8 <<< 4) := by decide
  exact fields f.code s.aligned

/-- Settles O31: the listed codes are those ERR records, and fault entry is a record update of MODE and ERR. -/
theorem faultEntryWritesModeAndErrOnly : Obligations.FaultEntryWritesModeAndErrOnly := by
  intro s f c listed
  have code : f.code = c := by rcases listed with ⟨rfl, rfl⟩ | ⟨rfl, rfl⟩ | ⟨rfl, rfl⟩ | ⟨rfl, rfl⟩ | ⟨rfl, rfl⟩ <;> rfl
  subst code
  exact ⟨rfl, State.raise_statusPort f s⟩

/-! ## Words that are ignored or illegal -/

/-- Where commands are ignored every word is, legal or not (60_exceptions.md R128). -/
theorem runWord_ignored {s : State} (ignores : s.ignoresCommands = true) (cw : CommandWord) : runWord cw s = .next s := by
  cases hd : decode cw with
  | ok i => rw [runWord_ok hd, exec_ignored ignores]
  | error e => rw [runWord_error hd, execIllegal, if_pos ignores]

/-- Below ERR a word the decoder rejects raises IllegalCommand (60_exceptions.md R121). -/
theorem runWord_rejected {cw : CommandWord} {e : DecodeError} {s : State} (below : s.ignoresCommands = false)
    (hd : decode cw = .error e) : runWord cw s = .next (s.raise .illegalCommand) := by
  rw [runWord_error hd, execIllegal, below]
  rfl

theorem exists_error_of_no_command {cw : CommandWord} (no_command : ∀ i, decode cw ≠ .ok i) : ∃ e, decode cw = .error e := by
  cases hd : decode cw with
  | ok i => exact absurd hd (no_command i)
  | error e => exact ⟨e, rfl⟩

/-- The fields of a command's word as numbers (30_encoding.md R63): `op` is 1 to 4, bits 11:8 are 0, and PAD and SUM have `imm8 = 0`. -/
theorem encode_toNat_fields (i : Instr) :
    (1 ≤ (encode i).toNat / 4096 ∧ (encode i).toNat / 4096 ≤ 4) ∧ (encode i).toNat / 256 % 16 = 0 ∧
      (3 ≤ (encode i).toNat / 4096 → (encode i).toNat % 256 = 0) := by
  cases i with
  | init w =>
    have := w.isLt
    simp only [encode, Laws.Encoding.word_toNat, BitVec.toNat_ofNat]
    omega
  | push b =>
    have := b.isLt
    simp only [encode, Laws.Encoding.word_toNat, BitVec.toNat_ofNat]
    omega
  | pad => decide
  | sum => decide

/-- Settles O6: a word with one of the listed fields is no command's encoding, so the decoder rejects it. -/
theorem illegalWordsRaiseIllegalCommand : Obligations.IllegalWordsRaiseIllegalCommand := by
  intro s cw rest hh below listed
  have no_command : ∀ i, decode cw ≠ .ok i := by
    intro i hd
    obtain ⟨op, zero, imm⟩ := encode_toNat_fields i
    rw [encode_of_decode hd] at op zero imm
    omega
  obtain ⟨e, rejected⟩ := exists_error_of_no_command no_command
  rw [step_cons hh, perform]
  exact runWord_rejected (s := s.setHost rest) (State.not_ignores_of_mode below) rejected

/-! ## ERR -/

/-- In ERR a step over a command word takes the word and does nothing else (60_exceptions.md R128). -/
theorem step_of_err {s : State} {cw : CommandWord} {rest : List HostMove} (err : s.mode = Mode.err)
    (hh : s.host = .command cw :: rest) : step s = .next (s.setHost rest) := by
  rw [step_cons hh]
  exact runWord_ignored (s := s.setHost rest) (State.ignores_of_err err) cw

/-- In ERR any number of steps over command words take the words and do nothing else (60_exceptions.md R128). -/
theorem core_run_of_err (k : Nat) {s : State} (err : s.mode = Mode.err)
    (words : ∀ m ∈ s.host.take k, ∃ cw, m = HostMove.command cw) :
    Host.Core.run core k s = .next (s.setHost (s.host.drop k)) := by
  induction k generalizing s with
  | zero => rfl
  | succ k ih =>
    cases hh : s.host with
    | nil =>
      rw [core_run_succ k (step_nil hh), ih err (by simp [hh]), hh, List.drop_nil, List.drop_nil]
    | cons m rest =>
      rw [hh, List.take_succ_cons, List.forall_mem_cons] at words
      obtain ⟨⟨cw, rfl⟩, later⟩ := words
      rw [core_run_succ k (step_of_err err hh)]
      exact ih err later

/-- Settles O33: one word by the step in ERR, any number of words by induction on the steps. -/
theorem errModeIsAbsorbing : Obligations.ErrModeIsAbsorbing := by
  refine ⟨fun _ _ _ => step_of_err, fun s t k err words run => ?_⟩
  cases run.symm.trans (core_run_of_err k err words)
  rfl

/-! ## The mode test -/

/-- The mode is one of those in which the command is legal, whatever its operand (60_exceptions.md R122). -/
def State.allows (i : Instr) (s : State) : Bool :=
  match i with
  | .init _ => s.betweenRuns
  | .push _ => s.mode = Mode.accum
  | .pad => s.runOpen
  | .sum => s.runOpen

/-- The command is executed in one of the four modes below ERR, but in none where it is legal (60_exceptions.md R122). -/
def State.Refuses (i : Instr) (s : State) : Prop := s.ignoresCommands = false ∧ s.allows i = false

/-- A command outside its modes is not accepted. -/
theorem State.accepts_of_not_allows {i : Instr} {s : State} (h : s.allows i = false) : s.accepts i = false := by
  cases i <;> simp_all [State.allows, State.accepts]

/-- The fault is Protocol exactly outside the command's modes: in them it is one of the operand's (60_exceptions.md R129). -/
theorem State.faultOf_eq_protocol_iff {i : Instr} {s : State} (h : s.accepts i = false) :
    s.faultOf i = .protocol ↔ s.allows i = false := by
  cases i with
  | init w => simp [State.faultOf, State.allows]
  | push b => simp [State.faultOf, State.allows]
  | pad => exact iff_of_true rfl h
  | sum => simp [State.faultOf, State.allows]

/-- A command outside its modes raises Protocol, whatever its operand (60_exceptions.md R122, R129). -/
theorem exec_of_refuses {i : Instr} {s : State} (h : s.Refuses i) : exec i s = .next (s.raise .protocol) := by
  obtain ⟨below, not_allowed⟩ := h
  have refused := State.accepts_of_not_allows not_allowed
  rw [exec_faults below refused, (State.faultOf_eq_protocol_iff refused).2 not_allowed]

theorem FaultCode.code_injective : Function.Injective FaultCode.code := by
  intro f g
  cases f <;> cases g <;> decide

/-- With no fault recorded, a command answers the Protocol fault state exactly where its mode refuses it (60_exceptions.md R122): an
ignored or accepted one leaves ERR at 0, and another fault records another code. -/
theorem exec_eq_raise_protocol_iff {i : Instr} {s : State} (no_fault : s.err = 0#3) :
    exec i s = .next (s.raise .protocol) ↔ s.Refuses i := by
  refine ⟨fun protocol => ?_, exec_of_refuses⟩
  have no_code : s.err ≠ FaultCode.protocol.code := by rw [no_fault]; decide
  rcases exec_cases i s with ⟨_, e⟩ | ⟨below, refused, e⟩ | ⟨_, _, e⟩ <;>
    have same_state := Host.Outcome.next.inj (e.symm.trans protocol)
  · exact absurd (congrArg State.err same_state) no_code
  · have code : (s.faultOf i).code = FaultCode.protocol.code := congrArg State.err same_state
    exact ⟨below, (State.faultOf_eq_protocol_iff refused).1 (FaultCode.code_injective code)⟩
  · exact absurd ((State.effect_err i s).symm.trans (congrArg State.err same_state)) no_code

/-! The modes that refuse a command, one row of the table each (60_exceptions.md R122) -/

theorem State.refuses_iff {i : Instr} {s : State} : s.Refuses i ↔ s.mode.toNat < 4 ∧ ¬ s.allows i = true := by
  rw [State.Refuses, State.ignoresCommands_eq_false, Bool.not_eq_true]

theorem State.refuses_init_iff {w : Byte} {s : State} :
    s.Refuses (.init w) ↔ s.mode = Mode.accum ∨ s.mode = Mode.padded := by
  have modes : ∀ m : Mode, m.toNat < 4 ∧ ¬ (m = Mode.idle ∨ m = Mode.done) ↔ m = Mode.accum ∨ m = Mode.padded := by decide
  rw [State.refuses_iff, State.allows, State.betweenRuns_iff]
  exact modes s.mode

theorem State.refuses_push_iff {b : Byte} {s : State} :
    s.Refuses (.push b) ↔ s.mode = Mode.idle ∨ s.mode = Mode.padded ∨ s.mode = Mode.done := by
  have modes : ∀ m : Mode, m.toNat < 4 ∧ ¬ m = Mode.accum ↔ m = Mode.idle ∨ m = Mode.padded ∨ m = Mode.done := by decide
  rw [State.refuses_iff, State.allows, decide_eq_true_iff]
  exact modes s.mode

theorem State.refuses_pad_iff {s : State} : s.Refuses .pad ↔ s.mode = Mode.idle ∨ s.mode = Mode.done := by
  have modes : ∀ m : Mode, m.toNat < 4 ∧ ¬ (m = Mode.accum ∨ m = Mode.padded) ↔ m = Mode.idle ∨ m = Mode.done := by decide
  rw [State.refuses_iff, State.allows, State.runOpen_iff]
  exact modes s.mode

/-- SUM has PAD's modes (60_exceptions.md R122). -/
theorem State.refuses_sum_iff {s : State} : s.Refuses .sum ↔ s.mode = Mode.idle ∨ s.mode = Mode.done := State.refuses_pad_iff

/-- Settles O32: Protocol is the answer exactly of the refusing modes, which are the table's. -/
theorem protocolExactlyOutsideLegalModes : Obligations.ProtocolExactlyOutsideLegalModes := by
  intro s _ no_fault
  have protocol (i : Instr) := exec_eq_raise_protocol_iff (i := i) no_fault
  exact ⟨fun w => (protocol (.init w)).trans State.refuses_init_iff, fun b => (protocol (.push b)).trans State.refuses_push_iff,
    (protocol .pad).trans State.refuses_pad_iff, (protocol .sum).trans State.refuses_sum_iff⟩

/-- A word whose command the mode refuses raises Protocol (60_exceptions.md R129). -/
theorem runWord_of_refuses {cw : CommandWord} {i : Instr} {s : State} (hd : decode cw = .ok i) (h : s.Refuses i) :
    runWord cw s = .next (s.raise .protocol) :=
  (runWord_ok hd s).trans (exec_of_refuses h)

/-- Settles O34: the checks one after the other, each against the rule of the fault it raises. -/
theorem faultPriority : Obligations.FaultPriority := by
  intro s cw
  refine ⟨fun err => runWord_ignored (State.ignores_of_err err) cw, fun below no_command => ?_,
    fun w modes hd => runWord_of_refuses hd (State.refuses_init_iff.2 modes),
    fun b modes hd => runWord_of_refuses hd (State.refuses_push_iff.2 modes), fun modes hd => ?_,
    fun w between hd not8 not16 not32 => ?_, fun b accum hd full => ?_, fun run_open hd misaligned => ?_⟩
  · obtain ⟨e, rejected⟩ := exists_error_of_no_command no_command
    exact runWord_rejected (State.not_ignores_of_mode below) rejected
  · rcases hd with hd | hd
    · exact runWord_of_refuses hd (State.refuses_pad_iff.2 modes)
    · exact runWord_of_refuses hd (State.refuses_sum_iff.2 modes)
  · rw [runWord_ok hd]
    exact invalidWidthFaultsAndKeepsTheRest.1 w s between not8 not16 not32
  · rw [runWord_ok hd]
    exact (exec_ghostExec_push_of_full [] accum full).1
  · rw [runWord_ok hd]
    exact exec_sum_of_misaligned run_open misaligned

/-! ## The transition table -/

/-! The column of a command's word, in the terms of the commands' own checks (60_exceptions.md R138) -/

theorem modeEvent_init (w : Byte) (s : State) :
    modeEvent (encode (.init w)) s = if (widthOfOperand w).isSome then .initValid else .initInvalid := by
  have named : (w = 8#8 ∨ w = 16#8 ∨ w = 32#8) ↔ (widthOfOperand w).isSome = true := by
    rw [Option.isSome_iff_ne_none, ne_eq, widthOfOperand_eq_none]
    tauto
  rw [modeEvent, (Laws.Encoding.init w rfl).2.2]
  exact if_congr named rfl rfl

theorem modeEvent_push (b : Byte) (s : State) :
    modeEvent (encode (.push b)) s = if s.len < Config.maxLen then .pushRoom else .pushFull := by
  rw [modeEvent, (Laws.Encoding.push b rfl).2.2]

theorem modeEvent_pad (s : State) : modeEvent (encode .pad) s = .pad := rfl

theorem modeEvent_sum (s : State) :
    modeEvent (encode .sum) s = if s.aligned then .sumAligned else .sumMisaligned :=
  if_congr (State.aligned_iff s).symm rfl rfl

theorem modeEvent_of_error {cw : CommandWord} {e : DecodeError} (h : decode cw = .error e) (s : State) :
    modeEvent cw s = .illegal := by
  rw [modeEvent, h]

/-! Where commands are ignored, and the columns of the illegal words and of reset (60_exceptions.md R138) -/

/-- The last row serves every mode in which commands are ignored (log entry 3). -/
theorem modeTable_of_ignores {s : State} (h : s.ignoresCommands = true) (e : ModeEvent) : modeTable s.mode e = errRow e := by
  have above := (State.ignoresCommands_iff s).1 h
  have other : ∀ m : Mode, m.toNat < 4 → s.mode ≠ m := fun m low same => by rw [same] at above; omega
  rw [modeTable, if_neg (other _ (by decide)), if_neg (other _ (by decide)), if_neg (other _ (by decide)),
    if_neg (other _ (by decide))]

/-- In the last row every cell but reset's is "ERR (ignored)" (60_exceptions.md R138). -/
theorem errRow_of_ne_reset {e : ModeEvent} (h : e ≠ .reset) : errRow e = .ignored := by
  cases e with
  | reset => exact absurd rfl h
  | _ => rfl

/-- Below ERR the column of the illegal words is IllegalCommand in every row (60_exceptions.md R138). -/
theorem modeTable_illegal {s : State} (below : s.ignoresCommands = false) :
    modeTable s.mode .illegal = .faults .illegalCommand := by
  rcases s.mode_cases with mode | mode | mode | mode | ignores
  case inr.inr.inr.inr => exact absurd ignores (ne_true_of_eq_false below)
  all_goals rw [mode]; rfl

/-- Reset goes to IDLE from every row (60_exceptions.md R138). -/
theorem modeTable_reset (m : Mode) : modeTable m .reset = .goes Mode.idle := by
  unfold modeTable
  split_ifs <;> rfl

/-- No command word is the reset input (60_exceptions.md R138). -/
theorem modeEvent_ne_reset (cw : CommandWord) (s : State) : modeEvent cw s ≠ .reset := by
  cases hd : decode cw with
  | error e => simp [modeEvent_of_error hd]
  | ok i =>
    rw [← encode_of_decode hd]
    cases i with
    | init w => rw [modeEvent_init]; split <;> decide
    | push b => rw [modeEvent_push]; split <;> decide
    | pad => rw [modeEvent_pad]; decide
    | sum => rw [modeEvent_sum]; split <;> decide

/-! The cell of a word, by what the engine does with the word -/

/-- A word that is ignored stands in a cell "ERR (ignored)". -/
theorem modeTable_of_word_ignored {s : State} (h : s.ignoresCommands = true) (cw : CommandWord) :
    modeTable s.mode (modeEvent cw s) = .ignored := by
  rw [modeTable_of_ignores h, errRow_of_ne_reset (modeEvent_ne_reset cw s)]

/-- An accepted command stands in a cell with the mode its effect goes to. -/
theorem modeTable_of_accepts {i : Instr} {s : State} (h : s.accepts i = true) :
    modeTable s.mode (modeEvent (encode i) s) = .goes (s.effect i).mode := by
  cases i with
  | init w =>
    obtain ⟨between, named⟩ := Bool.and_eq_true_iff.1 h
    rw [modeEvent_init, if_pos named]
    rcases (State.betweenRuns_iff s).1 between with mode | mode <;> rw [mode] <;> rfl
  | push b =>
    obtain ⟨accum, room⟩ := Bool.and_eq_true_iff.1 h
    have mode : s.mode = Mode.accum := of_decide_eq_true accum
    rw [modeEvent_push, if_pos (of_decide_eq_true room), State.effect, State.laneAdd_mode, mode]
    rfl
  | pad =>
    rw [modeEvent_pad]
    rcases (State.runOpen_iff s).1 h with mode | mode <;> rw [mode] <;> rfl
  | sum =>
    obtain ⟨run_open, aligned⟩ := Bool.and_eq_true_iff.1 h
    rw [modeEvent_sum, if_pos aligned]
    rcases (State.runOpen_iff s).1 run_open with mode | mode <;> rw [mode] <;> rfl

/-- A command its mode refuses stands in a cell Protocol, whatever its operand. -/
theorem modeTable_of_refuses {i : Instr} {s : State} (h : s.Refuses i) :
    modeTable s.mode (modeEvent (encode i) s) = .faults .protocol := by
  cases i with
  | init w =>
    rw [modeEvent_init]
    rcases State.refuses_init_iff.1 h with mode | mode <;> rw [mode] <;> split <;> rfl
  | push b =>
    rw [modeEvent_push]
    rcases State.refuses_push_iff.1 h with mode | mode | mode <;> rw [mode] <;> split <;> rfl
  | pad =>
    rw [modeEvent_pad]
    rcases State.refuses_pad_iff.1 h with mode | mode <;> rw [mode] <;> rfl
  | sum =>
    rw [modeEvent_sum]
    rcases State.refuses_sum_iff.1 h with mode | mode <;> rw [mode] <;> split <;> rfl

/-- A command in its modes that is not accepted stands in a cell with the fault of its operand. -/
theorem modeTable_of_operand_fault {i : Instr} {s : State} (allowed : s.allows i = true) (h : s.accepts i = false) :
    modeTable s.mode (modeEvent (encode i) s) = .faults (s.faultOf i) := by
  cases i with
  | init w =>
    have between : s.betweenRuns = true := allowed
    have unnamed : ¬ (widthOfOperand w).isSome = true := by simpa [State.accepts, between] using h
    rw [modeEvent_init, if_neg unnamed, State.faultOf, if_pos between]
    rcases (State.betweenRuns_iff s).1 between with mode | mode <;> rw [mode] <;> rfl
  | push b =>
    have mode : s.mode = Mode.accum := of_decide_eq_true allowed
    have full : ¬ s.len < Config.maxLen := by simpa [State.accepts, mode] using h
    rw [modeEvent_push, if_neg full, State.faultOf, if_pos mode, mode]
    rfl
  | pad => exact absurd allowed (ne_true_of_eq_false h)
  | sum =>
    have run_open : s.runOpen = true := allowed
    have misaligned : ¬ s.aligned = true := by simpa [State.accepts, run_open] using h
    rw [modeEvent_sum, if_neg misaligned, State.faultOf, if_pos run_open]
    rcases (State.runOpen_iff s).1 run_open with mode | mode <;> rw [mode] <;> rfl

/-- A command that faults stands in a cell with its fault: Protocol in a refusing mode, else its operand's. -/
theorem modeTable_of_faults {i : Instr} {s : State} (below : s.ignoresCommands = false) (h : s.accepts i = false) :
    modeTable s.mode (modeEvent (encode i) s) = .faults (s.faultOf i) := by
  cases allowed : s.allows i with
  | true => exact modeTable_of_operand_fault allowed h
  | false => rw [(State.faultOf_eq_protocol_iff h).2 allowed, modeTable_of_refuses ⟨below, allowed⟩]

/-- The state has the MODE and ERR of a cell of the table, which the machine entered from `s` (60_exceptions.md R138). -/
def ModeCell.Reached (c : ModeCell) (s t : State) : Prop := t.mode = c.modeAfter s.mode ∧ t.err = c.errAfter s.err

/-- Every command word leads to the MODE and ERR of its cell, in every mode (60_exceptions.md R138). -/
theorem runWord_reaches_cell (cw : CommandWord) (s : State) :
    ∃ t, runWord cw s = .next t ∧ (modeTable s.mode (modeEvent cw s)).Reached s t := by
  cases ignores : s.ignoresCommands with
  | true => exact ⟨s, runWord_ignored ignores cw, by rw [modeTable_of_word_ignored ignores]; exact ⟨rfl, rfl⟩⟩
  | false =>
    cases hd : decode cw with
    | error e =>
      refine ⟨_, runWord_rejected ignores hd, ?_⟩
      rw [modeEvent_of_error hd, modeTable_illegal ignores]
      exact ⟨rfl, rfl⟩
    | ok i =>
      rw [runWord_ok hd, ← encode_of_decode hd]
      cases accepted : s.accepts i with
      | true =>
        refine ⟨_, exec_accepted accepted, ?_⟩
        rw [modeTable_of_accepts accepted]
        exact ⟨rfl, State.effect_err i s⟩
      | false =>
        refine ⟨_, exec_faults ignores accepted, ?_⟩
        rw [modeTable_of_faults ignores accepted]
        exact ⟨rfl, rfl⟩

/-- Settles O35: every command word leads to its cell, and reset goes to IDLE from every row. -/
theorem modeMachineFollowsTheTable : Obligations.ModeMachineFollowsTheTable :=
  fun s _ => ⟨fun cw => runWord_reaches_cell cw s, s.clear, rfl, by rw [modeTable_reset]; rfl⟩

end Sys2Proof.Machine

/-! PROOFS. The family 70_reset_and_hazards.md: the reset input as the only way out of ERR and of an open run (R150), and reset beside a
command word (R151). -/

namespace Sys2Proof.Machine

/-! ## The step over the reset input -/

theorem step_of_reset {s : State} {rest : List HostMove} (h : s.host = .reset :: rest) :
    step s = .next { State.reset with host := rest } :=
  step_cons h

/-- Reset wins over a word beside it (70_reset_and_hazards.md R151). -/
theorem step_of_resetWithCommand {s : State} {cw : CommandWord} {rest : List HostMove}
    (h : s.host = .resetWithCommand cw :: rest) : step s = .next { State.reset with host := rest } :=
  step_cons h

/-- A host that asserts no reset gets no reset step. -/
theorem not_resetStep {s t : State} (no_reset : ∀ rest, s.host ≠ .reset :: rest)
    (no_resetWithCommand : ∀ cw rest, s.host ≠ .resetWithCommand cw :: rest) : ¬ ResetStep s t := by
  rintro ⟨rest, _, reset | ⟨cw, reset⟩⟩
  · exact no_reset rest reset
  · exact no_resetWithCommand cw rest reset

/-! ## No other way out -/

/-- Without reset ERR stays ERR: no command is accepted there (60_exceptions.md R128). -/
theorem step_keeps_err {s t : State} (h : step s = .next t) (not_reset : ¬ ResetStep s t) (err : s.mode = Mode.err) :
    t.mode = Mode.err := by
  rcases step_kinds h with ⟨_, rfl⟩ | reset | ⟨_, _, _, rfl⟩ | ⟨i, _, _, accepted, _⟩
  · exact err
  · exact absurd reset not_reset
  · rfl
  · rw [State.accepts_of_ignored (State.ignores_of_err err)] at accepted
    contradiction

/-- An open run accepts no INIT (60_exceptions.md R122). -/
theorem State.accepts_init_of_runOpen {s : State} (run_open : s.mode = Mode.accum ∨ s.mode = Mode.padded) (w : Byte) :
    s.accepts (.init w) = false :=
  State.accepts_of_not_allows (State.refuses_init_iff.2 run_open).2

/-- A command accepted in an open run is SUM or goes on with the run: same width, and PADDED does not turn back into ACCUM
(60_exceptions.md R138). -/
theorem State.effect_goesOn_or_sum {i : Instr} {s : State} (run_open : s.mode = Mode.accum ∨ s.mode = Mode.padded)
    (accepted : s.accepts i = true) :
    (((s.effect i).mode = Mode.accum ∨ (s.effect i).mode = Mode.padded) ∧ (s.effect i).wsel = s.wsel ∧
      (s.mode = Mode.padded → (s.effect i).mode = Mode.padded)) ∨ i = .sum := by
  cases i with
  | init w =>
    rw [State.accepts_init_of_runOpen run_open] at accepted
    contradiction
  | push b => exact .inl ⟨run_open, rfl, id⟩
  | pad => exact .inl ⟨.inr rfl, State.fill_wsel _ s, fun _ => rfl⟩
  | sum => exact .inr rfl

/-- Without reset a step from an open run loses none of the LEN bytes: LEN falls by reset and by INIT only (41_checksum.md R95). -/
theorem step_len_le_of_runOpen {s t : State} (h : step s = .next t) (not_reset : ¬ ResetStep s t)
    (run_open : s.mode = Mode.accum ∨ s.mode = Mode.padded) (legal : Legal s) : s.len.toNat ≤ t.len.toNat := by
  rcases step_len_cases legal h with ⟨_, reset | ⟨_, _, _, accepted, _⟩⟩ | ⟨grown, _⟩
  · exact absurd reset not_reset
  · rw [State.accepts_init_of_runOpen run_open] at accepted
    contradiction
  · exact grown

/-- Settles O2: without reset a step from an open run is one that keeps the registers, a fault, or a command accepted there. -/
theorem resetInputClearsAndIsTheOnlyWayOut : Obligations.ResetInputClearsAndIsTheOnlyWayOut := by
  refine ⟨fun s rest hh => ⟨_, step_of_reset hh, rfl, State.reset_ports⟩, fun s t h no_reset no_resetWithCommand => ?_⟩
  have not_reset : ¬ ResetStep s t := not_resetStep no_reset no_resetWithCommand
  refine ⟨step_keeps_err h not_reset, fun run_open => ?_⟩
  have len_kept := step_len_le_of_runOpen h not_reset run_open
  rcases step_kinds h with ⟨_, rfl⟩ | reset | ⟨_, _, _, rfl⟩ | ⟨i, rest, hh, accepted, rfl⟩
  · exact .inl ⟨run_open, rfl, id, len_kept⟩
  · exact absurd reset not_reset
  · exact .inr (.inr ⟨rfl, rfl⟩)
  · rw [← State.accepts_setHost i rest] at accepted
    rcases State.effect_goesOn_or_sum (s := s.setHost rest) run_open accepted with ⟨still_open, same_width, no_reopening⟩ | rfl
    · exact .inl ⟨still_open, same_width, no_reopening, len_kept⟩
    · exact .inr (.inl ⟨rfl, rest, hh⟩)

/-! ## Reset beside a command word -/

/-- After the step that resets, the next word is run on the reset state (70_reset_and_hazards.md R151). -/
theorem core_run_two_of_reset {s : State} {next : CommandWord} {rest : List HostMove}
    (reset : step s = .next { State.reset with host := .command next :: rest }) :
    Host.Core.run core 2 s = runWord next { State.reset with host := rest } := by
  obtain ⟨t, answer⟩ := runWord_next next { State.reset with host := rest }
  have word : step { State.reset with host := .command next :: rest } = .next t :=
    (step_cons (m := .command next) (rest := rest) rfl).trans answer
  rw [core_run_succ 1 reset, core_run_succ 0 word, answer]
  rfl

/-- Settles O3: reset with a word and reset alone are the same step, to the reset state, on which the next word runs. -/
theorem resetWinsOverSimultaneousCommand : Obligations.ResetWinsOverSimultaneousCommand := by
  refine ⟨fun s cw rest hh => ?_, fun s next rest hh => core_run_two_of_reset ?_⟩
  · have reset_wins := step_of_resetWithCommand hh
    exact ⟨reset_wins.trans (step_of_reset rfl).symm, reset_wins⟩
  · rcases hh with reset | ⟨_, reset⟩
    · exact step_of_reset reset
    · exact step_of_resetWithCommand reset

end Sys2Proof.Machine

/-! PROOFS. The family 30_encoding.md: decode and encode are inverse (R60 to R66), the opcode table and the counts (R63, R65), the words
the assembler writes (R69, R70). -/

namespace Sys2Proof.Machine

/-! ## Decode and encode -/

/-- Every command's word belongs to its row and decodes to the command (30_encoding.md R63, R64). -/
theorem encoding_statement (i : Instr) : Laws.Encoding.Statement i := by
  cases i with
  | init w => exact Laws.Encoding.init w
  | push b => exact Laws.Encoding.push b
  | pad => exact Laws.Encoding.pad
  | sum => exact Laws.Encoding.sum

/-- All commands are well formed: an operand is a byte by its type (30_encoding.md R63). -/
theorem wellFormed_eq_true (i : Instr) : i.wellFormed = true := by cases i <;> rfl

@[simp] theorem decode_encode (i : Instr) : decode (encode i) = .ok i := (encoding_statement i (wellFormed_eq_true i)).2.2

/-- A word decodes to a command exactly if it is the command's encoding (30_encoding.md R63). -/
theorem decode_eq_ok_iff {cw : CommandWord} {i : Instr} : decode cw = .ok i ↔ cw = encode i :=
  ⟨fun h => (encode_of_decode h).symm, fun h => h ▸ decode_encode i⟩

/-- No two commands share a word (30_encoding.md R63). -/
theorem encode_injective : Function.Injective encode := fun i j same =>
  Except.ok.inj ((decode_encode i).symm.trans (same ▸ decode_encode j))

/-- Settles O11: a word put together from its fields is decoded by those fields, command by command. -/
theorem decodeOfEncodeIsTheCommand : Obligations.DecodeOfEncodeIsTheCommand := fun i _ => decode_encode i

/-- Settles O12: the fields the decoder has tested are the encoding's. -/
theorem encodeOfDecodeIsTheWord : Obligations.EncodeOfDecodeIsTheWord := fun _ _ => encode_of_decode

/-- Settles O10, word by word. -/
theorem writtenWordsDecode : Obligations.WrittenWordsDecode := by
  unfold Obligations.WrittenWordsDecode
  decide

/-! ## The opcode table -/

/-- The mask 0xFF00 keeps `op` and bits 11:8 and drops `imm8` (30_encoding.md R60, R63). -/
theorem and_highByte (cw : CommandWord) : cw &&& 0xFF00#16 = opField cw ++ zeroField cw ++ 0x00#8 := by
  have fields : (0xFF00#16 : CommandWord) = BitVec.allOnes 4 ++ BitVec.allOnes 4 ++ 0x00#8 := by decide
  calc cw &&& 0xFF00#16
    _ = (opField cw ++ zeroField cw ++ immField cw) &&& (BitVec.allOnes 4 ++ BitVec.allOnes 4 ++ 0x00#8) := by
        rw [Laws.Encoding.word_of_fields, fields]
    _ = opField cw ++ zeroField cw ++ 0x00#8 := by
        rw [BitVec.and_append, BitVec.and_append, BitVec.and_allOnes, BitVec.and_allOnes, BitVec.and_zero]

/-- A word whose high byte is `{op, 0000}` is that byte with the word's own `imm8` (30_encoding.md R63). -/
theorem eq_of_and_highByte {cw : CommandWord} {op : BitVec 4} (h : cw &&& 0xFF00#16 = op ++ 0x0#4 ++ 0x00#8) :
    cw = op ++ 0x0#4 ++ immField cw := by
  rw [and_highByte, BitVec.append_left_inj] at h
  rw [← h, Laws.Encoding.word_of_fields]

/-- The mask 0xFFFF keeps the whole word (30_encoding.md R63). -/
theorem and_wholeWord (cw : CommandWord) : cw &&& 0xFFFF#16 = cw := BitVec.and_allOnes

/-- A row of the table covers its own commands' words only (30_encoding.md R63). -/
theorem exists_command_of_covers {r : OpcodeRow} {cw : CommandWord} (mem : r ∈ opcodeTable) (covers : r.covers cw = true) :
    ∃ i : Instr, decode cw = .ok i ∧ i.row = r := by
  simp only [opcodeTable, List.mem_cons, List.not_mem_nil, or_false] at mem
  rcases mem with rfl | rfl | rfl | rfl <;> have word := beq_iff_eq.1 covers
  · exact ⟨.init (immField cw), decode_eq_ok_iff.2 (eq_of_and_highByte (op := 0x1#4) word), rfl⟩
  · exact ⟨.push (immField cw), decode_eq_ok_iff.2 (eq_of_and_highByte (op := 0x2#4) word), rfl⟩
  · exact ⟨.pad, decode_eq_ok_iff.2 ((and_wholeWord cw).symm.trans word), rfl⟩
  · exact ⟨.sum, decode_eq_ok_iff.2 ((and_wholeWord cw).symm.trans word), rfl⟩

/-- The row of a decoded command stands in the table and covers the word (30_encoding.md R63). -/
theorem row_covers_of_decode {cw : CommandWord} {i : Instr} (h : decode cw = .ok i) :
    i.row ∈ opcodeTable ∧ i.row.covers cw = true := by
  obtain ⟨mem, covers, _⟩ := encoding_statement i (wellFormed_eq_true i)
  exact ⟨mem, decode_eq_ok_iff.1 h ▸ covers⟩

/-- Settles O13: the rows that cover a word are rows of the command it decodes to, and there is one such command. -/
theorem opcodeTableAndDecoderAgree : Obligations.OpcodeTableAndDecoderAgree := by
  refine ⟨fun cw => ⟨?_, ?_⟩, fun _ _ => row_covers_of_decode, fun cw r hr q hq r_covers q_covers => ?_⟩
  · rintro ⟨i, h⟩
    exact ⟨i.row, row_covers_of_decode h⟩
  · rintro ⟨r, mem, covers⟩
    obtain ⟨i, h, _⟩ := exists_command_of_covers mem covers
    exact ⟨i, h⟩
  · obtain ⟨i, hi, rfl⟩ := exists_command_of_covers hr r_covers
    obtain ⟨j, hj, rfl⟩ := exists_command_of_covers hq q_covers
    rw [Except.ok.inj (hi.symm.trans hj)]

/-! ## The counts -/

/-- The words of INIT, or of PUSH, one an operand (30_encoding.md R65). -/
def operandWords (command : Byte → Instr) : Finset CommandWord := Finset.univ.image (encode ∘ command)

theorem mem_operandWords {command : Byte → Instr} {cw : CommandWord} :
    cw ∈ operandWords command ↔ ∃ b, decode cw = .ok (command b) := by
  simp only [operandWords, Finset.mem_image, Finset.mem_univ, true_and, Function.comp_apply, decode_eq_ok_iff, eq_comm (a := cw)]

theorem card_bitVec (n : Nat) : Fintype.card (BitVec n) = 2 ^ n := by
  rw [← FinEnum.card_eq_fintypeCard, FinEnum.card_bitVec]

/-- A command with a byte operand has 256 words (30_encoding.md R65). -/
theorem card_operandWords {command : Byte → Instr} (injective : Function.Injective command) :
    (operandWords command).card = 256 := by
  rw [operandWords, Finset.card_image_of_injective _ (encode_injective.comp injective), Finset.card_univ, card_bitVec]
  norm_num

theorem init_injective : Function.Injective Instr.init := fun _ _ => Instr.init.inj

theorem push_injective : Function.Injective Instr.push := fun _ _ => Instr.push.inj

/-- Words of commands with different constructors are different (30_encoding.md R63). -/
theorem disjoint_init_push : Disjoint (operandWords .init) (operandWords .push) := by
  refine Finset.disjoint_left.2 fun cw init push => ?_
  obtain ⟨w, hw⟩ := mem_operandWords.1 init
  obtain ⟨b, hb⟩ := mem_operandWords.1 push
  cases hw.symm.trans hb

theorem disjoint_operands_bare :
    Disjoint (operandWords .init ∪ operandWords .push) {encode .pad, encode .sum} := by
  refine Finset.disjoint_right.2 fun cw bare => ?_
  simp only [Finset.mem_insert, Finset.mem_singleton] at bare
  rcases bare with rfl | rfl <;> simp [mem_operandWords]

/-- The words of all commands (30_encoding.md R65). -/
def commandWords : Finset CommandWord := operandWords .init ∪ operandWords .push ∪ {encode .pad, encode .sum}

theorem mem_commandWords {cw : CommandWord} : cw ∈ commandWords ↔ ∃ i, decode cw = .ok i := by
  simp only [commandWords, Finset.mem_union, mem_operandWords, Finset.mem_insert, Finset.mem_singleton, ← decode_eq_ok_iff]
  constructor
  · rintro ((⟨w, h⟩ | ⟨b, h⟩) | h | h) <;> exact ⟨_, h⟩
  · rintro ⟨i, h⟩
    cases i with
    | init w => exact .inl (.inl ⟨w, h⟩)
    | push b => exact .inl (.inr ⟨b, h⟩)
    | pad => exact .inr (.inl h)
    | sum => exact .inr (.inr h)

theorem card_commandWords : commandWords.card = 514 := by
  have bare : ({encode .pad, encode .sum} : Finset CommandWord).card = 2 := by decide
  rw [commandWords, Finset.card_union_of_disjoint disjoint_operands_bare, Finset.card_union_of_disjoint disjoint_init_push,
    card_operandWords init_injective, card_operandWords push_injective, bare]

/-- A word is Illegal exactly if it is no command's (30_encoding.md R66). -/
theorem isIllegal_iff {cw : CommandWord} : isIllegal cw = true ↔ cw ∉ commandWords := by
  rw [mem_commandWords, isIllegal]
  cases decode cw <;> simp

/-- Settles O14: each class of commands is the image of its operands under the encoder, and the illegal words are the complement. -/
theorem encodingCounts : Obligations.EncodingCounts := by
  have counted (command : Byte → Instr) (injective : Function.Injective command) :
      (Finset.univ.filter fun cw : CommandWord => ∃ b, decode cw = .ok (command b)).card = 256 := by
    rw [← card_operandWords injective]
    exact congrArg Finset.card (Finset.ext fun cw => by simp [mem_operandWords])
  have single (i : Instr) : (Finset.univ.filter fun cw : CommandWord => decode cw = .ok i).card = 1 := by
    rw [← Finset.card_singleton (encode i)]
    exact congrArg Finset.card (Finset.ext fun cw => by simp [decode_eq_ok_iff])
  refine ⟨counted _ init_injective, counted _ push_injective, single .pad, single .sum, ?_⟩
  have complement : (Finset.univ.filter fun cw : CommandWord => isIllegal cw = true) = commandWordsᶜ :=
    Finset.ext fun cw => by simp [isIllegal_iff]
  rw [complement, Finset.card_compl, card_commandWords, card_bitVec]
  norm_num

/-! ## The assembler -/

/-- INIT's and PUSH's words are written `0x1000 | w` and `0x2000 | b` (30_encoding.md R69). -/
theorem encode_operand_eq_or : ∀ b : Byte,
    encode (.init b) = 0x1000#16 ||| b.setWidth 16 ∧ encode (.push b) = 0x2000#16 ||| b.setWidth 16 := by decide

/-- A number below 256 is the same operand in 8 and in 16 bits. -/
theorem setWidth_ofNat_of_lt {n : Nat} (h : n < 256) : (BitVec.ofNat 8 n).setWidth 16 = BitVec.ofNat 16 n := by
  apply BitVec.eq_of_toNat_eq
  simp only [BitVec.toNat_setWidth, BitVec.toNat_ofNat]
  omega

theorem expand_init {w : Nat} (h : w < 256) : Assembler.expand (.init w) = [0x1000#16 ||| BitVec.ofNat 16 w] := by
  rw [Assembler.expand, (encode_operand_eq_or _).1, setWidth_ofNat_of_lt h]

theorem expand_push {b : Nat} (h : b < 256) : Assembler.expand (.push b) = [0x2000#16 ||| BitVec.ofNat 16 b] := by
  rw [Assembler.expand, (encode_operand_eq_or _).2, setWidth_ofNat_of_lt h]

/-- The words of a quoted text decode to one PUSH a character (30_encoding.md R70). -/
theorem decode_pushWords (text : List Char) :
    (text.map Assembler.pushWord).map decode = text.map fun c => Except.ok (Instr.push (BitVec.ofNat 8 c.toNat)) := by
  simp [Assembler.pushWord, Function.comp_def]

theorem toNat_lt_of_asciiChar {c : Char} (h : asciiChar c = true) : c.toNat < 256 := by
  have : c.toNat < 128 := of_decide_eq_true h
  omega

/-- Settles O15: every line expands to encodings, which decode back, and an operand below 256 fits the word's low byte. -/
theorem pseudoInstructionsExpand : Obligations.PseudoInstructionsExpand := by
  refine ⟨fun w h => ⟨expand_init h, ?_⟩, fun b h => ⟨expand_push h, ?_⟩,
    fun c h => ⟨expand_push (toNat_lt_of_asciiChar h), ?_⟩, rfl, rfl, fun v h => ?_, rfl, rfl, fun text _ => decode_pushWords text,
    fun w text => (List.append_assoc [_] _ _).symm, fun w _ text _ => ?_⟩
  · simp [Assembler.expand]
  · simp [Assembler.expand]
  · simp [Assembler.expand, Assembler.pushWord]
  · simp [Assembler.expand, Nat.mod_eq_of_lt h]
  · rw [Assembler.expand, List.map_cons, List.map_append, decode_pushWords, decode_encode]
    simp

end Sys2Proof.Machine

/-! PROOFS. The family 10_state.md R34, the invariants: a legal state stays legal, and LEN and ACC stay those of the ghost buffer
(41_checksum.md R101). -/

namespace Sys2Proof.Machine

/-! ## Legal states -/

/-- Settles O45: after reset only the rules for IDLE ask anything, and every register is 0. -/
theorem resetStateIsLegal : Obligations.ResetStateIsLegal := by
  constructor <;> decide

theorem Legal.setHost {s : State} (h : List HostMove) (legal : Legal s) : Legal (s.setHost h) := { legal with }

/-- Fault entry goes to ERR with a code and keeps the rest (60_exceptions.md R126). -/
theorem Legal.raise {s : State} (f : FaultCode) (legal : Legal s) : Legal (s.raise f) where
  mode_le := by simp
  wsel_le := legal.wsel_le
  err_le := f.code_bounds.2
  err_iff := iff_of_true rfl (by cases f <;> simp)
  len_le := legal.len_le
  value_lt := legal.value_lt
  padded_aligned := by simp
  done_aligned := by simp
  done_length := by simp
  done_value := by simp
  no_result := by simp
  idle_zero := by simp

/-- Below ERR no fault is recorded (10_state.md R34 item 7). -/
theorem Legal.err_eq_zero {s : State} (legal : Legal s) (below : s.mode.toNat < 4) : s.err = 0#3 := by
  by_contra fault
  rw [legal.err_iff.2 fault] at below
  contradiction

/-- What an open run asks of a legal state: the rules for IDLE and DONE say nothing of it (10_state.md R34). -/
theorem legal_of_runOpen {s : State} (run_open : s.mode = Mode.accum ∨ s.mode = Mode.padded) (wsel_le : s.wsel.toNat ≤ 2)
    (no_fault : s.err = 0#3) (len_le : s.len.toNat ≤ 0xFFFFFFFC) (no_result : s.value = 0#32 ∧ s.length = 0#32)
    (padded_aligned : s.mode = Mode.padded → s.len.toNat % alignmentOf s.wsel = 0) : Legal s where
  mode_le := by rcases run_open with h | h <;> simp [h]
  wsel_le := wsel_le
  err_le := by simp [no_fault]
  err_iff := by rcases run_open with h | h <;> simp [h, no_fault]
  len_le := len_le
  value_lt := by simp [no_result.1]
  padded_aligned := padded_aligned
  done_aligned := by rcases run_open with h | h <;> simp [h]
  done_length := by rcases run_open with h | h <;> simp [h]
  done_value := by rcases run_open with h | h <;> simp [h]
  no_result := fun _ => no_result
  idle_zero := by rcases run_open with h | h <;> simp [h]

/-- SUM publishes the masked accumulator and LEN of an aligned run (41_checksum.md R97). -/
theorem Legal.publish {s : State} (legal : Legal s) (no_fault : s.err = 0#3) (aligned : s.len.toNat % alignmentOf s.wsel = 0) :
    Legal s.publish := by
  obtain ⟨w, hw⟩ := exists_width_of_selector legal.wsel_le
  have published : s.maskedSum.toNat = s.acc.toNat % 2 ^ widthOf s.wsel := by rw [maskedSum_toNat hw, hw, widthOf_selector]
  exact {
    mode_le := by simp
    wsel_le := legal.wsel_le
    err_le := legal.err_le
    err_iff := by simp [no_fault]
    len_le := legal.len_le
    value_lt := by
      rw [State.publish_value, published]
      exact Nat.mod_lt _ (by positivity)
    padded_aligned := by simp
    done_aligned := fun _ => aligned
    done_length := fun _ => rfl
    done_value := fun _ => published
    no_result := by simp
    idle_zero := by simp }

/-- An accepted command runs below ERR (60_exceptions.md R128). -/
theorem State.mode_lt_of_accepts {i : Instr} {s : State} (h : s.accepts i = true) : s.mode.toNat < 4 := by
  rw [← State.ignoresCommands_eq_false, ← Bool.not_eq_true]
  intro ignores
  rw [State.accepts_of_ignored ignores] at h
  contradiction

/-- PAD leaves a whole number of words (40_pad.md R82). -/
theorem State.effect_pad_aligned {s : State} {w : Width} (hw : s.wsel = w.selector) :
    (s.effect .pad).len.toNat % alignmentOf (s.effect .pad).wsel = 0 := by
  rw [State.effect, State.closeInput_wsel, State.fill_wsel, hw, alignmentOf_selector]
  exact State.fill_aligned hw

/-- An accepted command leads from a legal state to a legal state (10_state.md R34). -/
theorem Legal.effect {i : Instr} {s : State} (accepted : s.accepts i = true) (legal : Legal s) : Legal (s.effect i) := by
  have no_fault := legal.err_eq_zero (State.mode_lt_of_accepts accepted)
  obtain ⟨w, hw⟩ := exists_width_of_selector legal.wsel_le
  cases i with
  | init operand =>
    exact legal_of_runOpen (.inl rfl) (Width.selector_le _) no_fault (Nat.zero_le _) ⟨rfl, rfl⟩ (by simp [State.effect])
  | push b =>
    obtain ⟨accum, room⟩ := State.accepts_push_iff.1 accepted
    have len_le : (s.effect (.push b)).len.toNat ≤ 0xFFFFFFFC := (State.effect_push_len_toNat accepted).trans_le room
    exact legal_of_runOpen (.inl accum) legal.wsel_le no_fault len_le (legal.no_result (by simp [accum]))
      (by simp [State.effect, accum])
  | pad =>
    have run_open := (State.runOpen_iff s).1 accepted
    have len_le : (s.effect .pad).len.toNat ≤ 0xFFFFFFFC :=
      (State.effect_pad_len_toNat hw legal.len_le).trans_le (State.len_add_padAmount_le hw legal.len_le)
    have no_result := legal.no_result (by rcases run_open with h | h <;> simp [h])
    exact legal_of_runOpen (.inr rfl) (by simp [State.effect, legal.wsel_le]) (by rw [State.effect_err, no_fault]) len_le
      (by simp [State.effect, no_result]) (fun _ => State.effect_pad_aligned hw)
  | sum =>
    obtain ⟨_, aligned⟩ := Bool.and_eq_true_iff.1 accepted
    exact legal.publish no_fault ((State.aligned_iff s).1 aligned)

/-- Settles O46: reset establishes the invariant, and the host's moves, fault entry and every accepted command keep it. -/
theorem stepKeepsLegal : Obligations.StepKeepsLegal := fun _ _ legal h =>
  step_keeps_ghost_relation (R := fun s _ => Legal s) (buf := []) resetStateIsLegal Legal.setHost
    (fun f _ => Legal.raise f) Legal.effect h legal

/-! ## The exact sum of the ghost buffer -/

/-- The lane sum of a buffer of at most MAXLEN bytes is below 2^62 (41_checksum.md R101). -/
theorem laneSum_lt (w : Width) {buf : List Byte} (fits : buf.length ≤ 0xFFFFFFFC) : laneSum w.alignment buf < 2 ^ 62 := by
  have bound := laneSum_le w.alignment_pos buf
  have open_word : 0 < 256 ^ (w.alignment - buf.length % w.alignment) := by positivity
  cases w <;> simp only [Width.alignment_w8, Width.alignment_w16, Width.alignment_w32] at bound open_word ⊢ <;> omega

/-- LEN and ACC are the number of bytes and the exact lane sum of the buffer, under a width's selector (10_state.md R34 items 1 and 2). -/
structure SumsBytes (w : Width) (s : State) (buf : List Byte) : Prop where
  selector : s.wsel = w.selector
  len_eq : s.len.toNat = buf.length
  acc_eq : s.acc.toNat = laneSum w.alignment buf

theorem Represents.sumsBytes {s : State} {buf : List Byte} {w : Width} (h : Represents s buf) (hw : s.wsel = w.selector) :
    SumsBytes w s buf :=
  ⟨hw, h.len_eq, by rw [h.acc_eq, hw, alignmentOf_selector]⟩

theorem SumsBytes.represents {s : State} {buf : List Byte} {w : Width} (h : SumsBytes w s buf) (legal : Legal s) :
    Represents s buf :=
  ⟨legal, h.len_eq, by rw [h.acc_eq, h.selector, alignmentOf_selector]⟩

/-- The byte data path appends one byte: below MAXLEN neither LEN nor ACC wraps (41_checksum.md R93, R101). -/
theorem SumsBytes.laneAdd {w : Width} {s : State} {buf : List Byte} (b : Byte) (h : SumsBytes w s buf)
    (room : buf.length < 0xFFFFFFFC) : SumsBytes w (s.laneAdd b) (buf ++ [b]) := by
  obtain ⟨hw, len_eq, acc_eq⟩ := h
  refine ⟨hw, ?_, ?_⟩
  · rw [State.laneAdd_len_toNat (by omega), len_eq, List.length_append, List.length_singleton]
  · have no_wrap : laneSum w.alignment (buf ++ [b]) < 2 ^ 62 :=
      laneSum_lt w (by rw [List.length_append, List.length_singleton]; exact room)
    rw [State.laneAdd_acc_toNat, State.laneShift_of_selector hw, acc_eq, len_eq, ← laneSum_push]
    exact Nat.mod_eq_of_lt (by omega)

/-- The filler loop appends its filler bytes (40_pad.md R82). -/
theorem SumsBytes.fill {w : Width} (n : Nat) {s : State} {buf : List Byte} (h : SumsBytes w s buf)
    (room : buf.length + n ≤ 0xFFFFFFFC) : SumsBytes w (State.fill n s) (buf ++ List.replicate n Config.filler) := by
  induction n generalizing s buf with
  | zero => simpa [State.fill] using h
  | succ n ih =>
    have later := ih (h.laneAdd Config.filler (by omega)) (by simp; omega)
    rwa [List.append_assoc, List.singleton_append, ← List.replicate_succ] at later

/-- An accepted command's writes of LEN, ACC and the buffer agree (10_state.md R34 items 1 and 2). -/
theorem Represents.effect {i : Instr} {s : State} {buf : List Byte} (accepted : s.accepts i = true) (h : Represents s buf) :
    Represents (s.effect i) (ghostExec i s buf) := by
  have legal := h.legal.effect accepted
  obtain ⟨w, hw⟩ := exists_width_of_selector h.legal.wsel_le
  have sums := h.sumsBytes hw
  unfold ghostExec
  rw [if_pos accepted]
  cases i with
  | init operand => exact ⟨legal, rfl, rfl⟩
  | push b =>
    have room := (State.accepts_push_iff.1 accepted).2
    exact (sums.laneAdd b (h.len_eq ▸ room)).represents legal
  | pad =>
    have bound := State.len_add_padAmount_le hw h.legal.len_le
    have padded := sums.fill s.padAmount (h.len_eq ▸ bound)
    have same : Reference.padTo s.alignment buf = buf ++ List.replicate s.padAmount Config.filler := by
      rw [Reference.padTo, State.padAmount, State.phase, h.len_eq]
    exact same ▸ SumsBytes.represents (w := w) ⟨padded.selector, padded.len_eq, padded.acc_eq⟩ legal
  | sum => exact ⟨legal, h.len_eq, h.acc_eq⟩

/-- Settles O47: the empty buffer has length and lane sum 0. -/
theorem resetRepresentsEmptyBuffer : Obligations.ResetRepresentsEmptyBuffer := ⟨resetStateIsLegal, rfl, rfl⟩

/-- Settles O48: reset establishes the relation of state and ghost buffer, and the host's moves, fault entry and every accepted
command keep it. -/
theorem stepKeepsRepresents : Obligations.StepKeepsRepresents := fun _ _ _ related h =>
  step_keeps_ghost_relation resetRepresentsEmptyBuffer
    (fun moves ⟨legal, len_eq, acc_eq⟩ => ⟨legal.setHost moves, len_eq, acc_eq⟩)
    (fun f _ ⟨legal, len_eq, acc_eq⟩ => ⟨legal.raise f, len_eq, acc_eq⟩) Represents.effect h related

/-- Settles O49: ACC is the exact lane sum of at most MAXLEN bytes, and in DONE VALUE is ACC's low W bits. -/
theorem accumulatorNeverWraps : Obligations.AccumulatorNeverWraps := by
  refine ⟨fun s buf h => ?_, fun s buf h is_done => ?_⟩
  · obtain ⟨w, hw⟩ := exists_width_of_selector h.legal.wsel_le
    rw [(h.sumsBytes hw).acc_eq]
    exact laneSum_lt w (h.len_eq ▸ h.legal.len_le)
  · rw [h.legal.done_value is_done, h.acc_eq]

/-! ## The sum of the words -/

/-- A word in front adds its number to the lane sum, the lanes of the rest being the same (20_memory.md R43). -/
theorem laneSum_append_word {k : Nat} {word : List Byte} (whole : word.length = k) (rest : List Byte) :
    laneSum k (word ++ rest) = Reference.bigEndian word + laneSum k rest := by
  rw [bigEndian_eq_laneSum whole, laneSum, laneSumFrom_append, whole, laneSumFrom_add_alignment, ← laneSum, ← laneSum]

/-- The lane sum of `n` words is their sum (10_state.md R34 item 3). -/
theorem laneSum_eq_wordSum {k : Nat} (n : Nat) {buf : List Byte} (words : buf.length = k * n) :
    laneSum k buf = Reference.wordSum k n buf := by
  induction n generalizing buf with
  | zero =>
    rw [List.eq_nil_of_length_eq_zero (words.trans (Nat.mul_zero k))]
    rfl
  | succ n ih =>
    rw [Nat.mul_succ] at words
    have first : (buf.take k).length = k := List.length_take_of_le (by omega)
    have others : (buf.drop k).length = k * n := by rw [List.length_drop]; omega
    calc laneSum k buf = laneSum k (buf.take k ++ buf.drop k) := by rw [List.take_append_drop]
      _ = Reference.bigEndian (buf.take k) + Reference.wordSum k n (buf.drop k) := by rw [laneSum_append_word first, ih others]
      _ = Reference.wordSum k (n + 1) buf := rfl

/-- Settles O50: an aligned buffer is a whole number of words. -/
theorem laneSumIsWordSumWhenAligned : Obligations.LaneSumIsWordSumWhenAligned := fun _ _ aligned =>
  laneSum_eq_wordSum _ (Nat.mul_div_cancel' (Nat.dvd_of_mod_eq_zero aligned)).symm

/-- The checksum of an aligned buffer is its lane sum modulo 2^W (41_checksum.md R90). -/
theorem checksum_eq_laneSum {buf : List Byte} {w : Width} (aligned : buf.length % w.alignment = 0) :
    Reference.checksum buf w = some (laneSum w.alignment buf % 2 ^ w.bits) :=
  Reference.checksum_eq_some_iff.2 ⟨aligned, by rw [laneSumIsWordSumWhenAligned w buf aligned]⟩

/-- Settles O51: in DONE the length is aligned and VALUE is the lane sum's low W bits. -/
theorem resultIsTheChecksumOfTheBuffer : Obligations.ResultIsTheChecksumOfTheBuffer := by
  intro s buf w h hw is_done
  have aligned : buf.length % w.alignment = 0 := by
    rw [← h.len_eq, ← alignmentOf_selector, ← hw]
    exact h.legal.done_aligned is_done
  refine ⟨?_, by rw [h.legal.done_length is_done, h.len_eq], aligned⟩
  rw [checksum_eq_laneSum aligned, h.legal.done_value is_done, (h.sumsBytes hw).acc_eq, hw, widthOf_selector]

end Sys2Proof.Machine

/-! PROOFS. The step and the port (30_encoding.md R61; 70_reset_and_hazards.md R163, R165): what is presented decides what the step does. -/

namespace Sys2Proof.Machine

theorem step_of_command {s : State} {cw : CommandWord} {rest : List HostMove} (h : s.host = .command cw :: rest) :
    step s = runWord cw (s.setHost rest) :=
  step_cons h

/-- Settles O4: a step over a word runs the word, and a word that decodes runs its command. -/
theorem stepRunsDecodedCommand : Obligations.StepRunsDecodedCommand := fun _ _ _ _ hh hd =>
  (step_of_command hh).trans (runWord_ok hd _)

/-- Settles O5, for the empty list of moves and for the move `idle`. -/
theorem silentPortKeepsTheState : Obligations.SilentPortKeepsTheState := ⟨fun _ => step_nil, fun _ _ => step_cons⟩

/-- Settles O7: a word always answers a next state and leaves the host's coming moves. -/
theorem everyCommandWordTakesOneStep : Obligations.EveryCommandWordTakesOneStep := by
  intro s cw rest hh
  obtain ⟨t, answer⟩ := runWord_next cw (s.setHost rest)
  exact ⟨t, (step_of_command hh).trans answer, runWord_host answer⟩

/-- Every move but two drivers on the port answers a next state (70_reset_and_hazards.md R163, R165). -/
theorem perform_next {m : HostMove} (one_driver : ∀ a b, m ≠ .twoDrivers a b) (s : State) : ∃ t, perform m s = .next t := by
  cases m with
  | command cw => exact runWord_next cw s
  | reset => exact ⟨_, rfl⟩
  | idle => exact ⟨_, rfl⟩
  | resetWithCommand cw => exact ⟨_, rfl⟩
  | twoDrivers a b => exact absurd rfl (one_driver a b)

/-- With one driver at most on the port a step answers a next state (70_reset_and_hazards.md R163, R165). -/
theorem step_next {s : State} (one_driver : ∀ a b rest, s.host ≠ .twoDrivers a b :: rest) : ∃ t, step s = .next t := by
  cases hh : s.host with
  | nil => exact ⟨s, step_nil hh⟩
  | cons m rest =>
    rw [step_cons hh]
    exact perform_next (fun a b two => one_driver a b rest (two ▸ hh)) _

/-- Settles O8: two drivers stop the machine, and every other step answers a next state. -/
theorem onlyPortContentionStops : Obligations.OnlyPortContentionStops := by
  refine fun s => ⟨⟨fun stops => ?_, ?_⟩, step_next⟩
  · by_contra one_driver
    obtain ⟨t, answer⟩ := step_next fun a b rest two => one_driver ⟨a, b, rest, two⟩
    cases stops.symm.trans answer
  · rintro ⟨a, b, rest, hh⟩
    exact step_cons hh

/-- Settles O9: the codes from 4 on are those in which commands are ignored. -/
theorem reservedModesIgnoreCommands : Obligations.ReservedModesIgnoreCommands := fun s cw rest hh reserved =>
  (step_of_command hh).trans (runWord_ignored (s := s.setHost rest) ((State.ignoresCommands_iff s).2 (by omega)) cw)

end Sys2Proof.Machine

/-! PROOFS. INIT, PUSH and PAD as functions of the state: a fresh run (42_width_dispatch.md R112), the lanes (41_checksum.md R93) and the
filler (40_pad.md R82 to R86). -/

namespace Sys2Proof.Machine

/-! ## INIT -/

/-- Between runs a legal state has no fault recorded (10_state.md R34 item 7). -/
theorem Legal.err_eq_zero_of_between {s : State} (legal : Legal s) (between : s.mode = Mode.idle ∨ s.mode = Mode.done) :
    s.err = 0#3 :=
  legal.err_eq_zero (by rcases between with h | h <;> simp [h])

/-- INIT writes every register but ERR (42_width_dispatch.md R112). -/
theorem State.beginRun_eq {s r : State} (sel : Selector) (err : s.err = r.err) (host : s.host = r.host) :
    s.beginRun sel = r.beginRun sel := by
  rw [State.beginRun, State.beginRun, err, host]

/-- Settles O20: INIT leaves of the old state only ERR, which is 0 between runs, and the host's moves. -/
theorem runsStartIndependentOfThePast : Obligations.RunsStartIndependentOfThePast := by
  intro width s r legal_s legal_r between_s between_r host
  have same : s.beginRun width.selector = r.beginRun width.selector := State.beginRun_eq _
    ((legal_s.err_eq_zero_of_between between_s).trans (legal_r.err_eq_zero_of_between between_r).symm) host
  exact ⟨_, (exec_ghostExec_init_of_width [] width between_s).1, same ▸ (exec_ghostExec_init_of_width [] width between_r).1⟩

/-! ## PUSH -/

/-- In ACCUM below MAXLEN PUSH is `lane_add` (41_checksum.md R92). -/
theorem exec_push_of_room {b : Byte} {s : State} (accum : s.mode = Mode.accum) (room : s.len.toNat < 0xFFFFFFFC) :
    exec (.push b) s = .next (s.laneAdd b) :=
  exec_accepted (State.accepts_push_iff.2 ⟨accum, room⟩)

/-- Settles O22: each row of the table is a width and a phase, which give the lane shift. -/
theorem pushSteersTheByteToItsLane : Obligations.PushSteersTheByteToItsLane := by
  intro b s accum room sh row
  obtain ⟨w, hw, shift⟩ : ∃ w : Width, s.wsel = w.selector ∧ 8 * (w.alignment - 1 - s.len.toNat % w.alignment) = sh := by
    rcases row with ⟨hw, rfl⟩ | ⟨hw, phase, rfl⟩ | ⟨hw, phase, rfl⟩ | ⟨hw, phase, rfl⟩ | ⟨hw, phase, rfl⟩ | ⟨hw, phase, rfl⟩ |
      ⟨hw, phase, rfl⟩
    exacts [⟨.w8, hw, by simp [Nat.mod_one]⟩, ⟨.w16, hw, by simp [phase]⟩, ⟨.w16, hw, by simp [phase]⟩, ⟨.w32, hw, by simp [phase]⟩,
      ⟨.w32, hw, by simp [phase]⟩, ⟨.w32, hw, by simp [phase]⟩, ⟨.w32, hw, by simp [phase]⟩]
  rw [exec_push_of_room accum room, State.laneAdd, State.laneShift_of_selector hw, shift]
  rfl

/-! ## PAD -/

/-- In an open run PAD has its own effect (40_pad.md R82). -/
theorem exec_pad_of_runOpen {s : State} (run_open : s.mode = Mode.accum ∨ s.mode = Mode.padded) :
    exec .pad s = .next (s.effect .pad) :=
  exec_accepted (i := .pad) ((State.runOpen_iff s).2 run_open)

/-- With no run open PAD raises Protocol (40_pad.md R82). -/
theorem exec_ghostExec_pad_of_betweenRuns {s : State} (buf : List Byte) (between : s.mode = Mode.idle ∨ s.mode = Mode.done) :
    exec .pad s = .next (s.raise .protocol) ∧ ghostExec .pad s buf = buf := by
  have refuses : s.Refuses .pad := State.refuses_pad_iff.2 between
  exact ⟨exec_of_refuses refuses, ghostExec_of_not_accepts buf (State.accepts_of_not_allows refuses.2)⟩

/-- PAD's effect register by register (40_pad.md R82, R83). -/
theorem State.effect_pad_eq {s : State} {w : Width} (hw : s.wsel = w.selector) {p : Nat} {added : Accumulator}
    (hp : p = (w.alignment - s.len.toNat % w.alignment) % w.alignment)
    (row : (p = 0 ∧ added = 0#64) ∨ (p = 1 ∧ added = 0x58#64) ∨ (p = 2 ∧ added = 0x5858#64) ∨ (p = 3 ∧ added = 0x585858#64)) :
    s.effect .pad = { s with mode := 2#3, acc := s.acc + added, len := s.len + BitVec.ofNat 32 p } := by
  rw [State.effect, State.padAmount_of_selector hw, ← hp, State.fill_frame, State.fill_acc hw hp row, State.fill_len]
  rfl

/-- Settles O24, mode by mode; the filler loop gives the additions and the alignment. -/
theorem padFillsTheLastWord : Obligations.PadFillsTheLastWord := by
  intro s buf
  refine ⟨exec_ghostExec_of_err buf, exec_ghostExec_pad_of_betweenRuns buf, fun run_open w hw p added hp row => ?_⟩
  refine ⟨_, exec_pad_of_runOpen run_open, State.effect_pad_eq hw hp row, ?_, ?_⟩
  · rw [State.statusPort_aligned, State.aligned_iff]
    exact State.effect_pad_aligned hw
  · have accepted : s.accepts .pad = true := (State.runOpen_iff s).2 run_open
    unfold ghostExec
    rw [if_pos accepted, State.alignment_of_selector hw]
    rfl

/-- Settles O25: PAD adds the pad amount, less than a word, and stops at a multiple of K, of which MAXLEN is one. -/
theorem padNeverOverflowsTheLength : Obligations.PadNeverOverflowsTheLength := by
  intro s w hw len_le run_open
  have len_eq := State.effect_pad_len_toNat hw len_le
  have small : s.padAmount < w.alignment := by
    rw [State.padAmount_of_selector hw]
    exact Nat.mod_lt _ w.alignment_pos
  have bound := State.len_add_padAmount_le hw len_le
  exact ⟨_, exec_pad_of_runOpen run_open, by omega, State.fill_aligned hw, by omega, by omega⟩

/-- At a word boundary there is nothing to fill (40_pad.md R82). -/
theorem State.padAmount_of_aligned {s : State} (aligned : s.len.toNat % alignmentOf s.wsel = 0) : s.padAmount = 0 := by
  have phase : s.phase = 0 := aligned
  rw [State.padAmount, phase, Nat.sub_zero, Nat.mod_self]

/-- In PADDED at a word boundary PAD changes nothing (40_pad.md R83). -/
theorem State.effect_pad_of_padded {s : State} (padded : s.mode = Mode.padded) (aligned : s.len.toNat % alignmentOf s.wsel = 0) :
    s.effect .pad = s := by
  rw [State.effect, State.padAmount_of_aligned aligned, State.fill, State.closeInput, ← padded]

/-- Settles O26: after a PAD the run is in PADDED at a word boundary, where PAD changes nothing. -/
theorem secondPadChangesNothing : Obligations.SecondPadChangesNothing := by
  intro s t w hw run_open h
  cases (exec_pad_of_runOpen run_open).symm.trans h
  rw [exec_pad_of_runOpen (.inr rfl), State.effect_pad_of_padded rfl (State.effect_pad_aligned hw)]

/-- `n` words PUSH 0x58 are `n` turns of PAD's filler loop, as long as LEN does not pass MAXLEN (40_pad.md R86). -/
theorem afterWords_push_filler (n : Nat) {s : State} (accum : s.mode = Mode.accum) (room : s.len.toNat + n ≤ 0xFFFFFFFC) :
    afterWords (List.replicate n (encode (.push Config.filler))) s = .next (State.fill n s) := by
  induction n generalizing s with
  | zero => rfl
  | succ n ih =>
    have first : runWord (encode (.push Config.filler)) s = .next (s.laneAdd Config.filler) :=
      (runWord_encode _ s).trans (exec_push_of_room accum (by omega))
    rw [List.replicate_succ, afterWords_cons _ first, State.fill]
    exact ih accum (by rw [State.laneAdd_len_toNat (by omega)]; omega)

/-- Settles O27: the pushes are the filler loop, and PAD is the loop and its last write. -/
theorem padEqualsPushedFiller : Obligations.PadEqualsPushedFiller := by
  intro s w p legal accum hw hp
  rw [← State.padAmount_of_selector hw] at hp
  subst hp
  exact ⟨_, afterWords_push_filler _ accum (State.len_add_padAmount_le hw legal.len_le), by rw [State.fill_mode, accum],
    exec_pad_of_runOpen (.inl accum)⟩

end Sys2Proof.Machine

/-! PROOFS. The family 60_exceptions.md R140: the step function written a second time, in natural numbers, is the machine's. -/

namespace Sys2Proof.Machine

namespace Consolidated

/-! ## The pieces of the consolidated step -/

/-- `fault(s, c)` is fault entry (60_exceptions.md R140, R126). -/
theorem faultWith_code (s : State) (f : FaultCode) : faultWith s f.code.toNat = s.raise f := by
  rw [faultWith, BitVec.ofNat_toNat, BitVec.setWidth_eq]
  rfl

/-- `lane_add` in natural numbers is the machine's (60_exceptions.md R140; 41_checksum.md R93). -/
theorem laneAdd_toNat (s : State) (b : Byte) : laneAdd s b.toNat = s.laneAdd b := by
  have wraps (n : Nat) : BitVec.ofNat 64 (n % 2 ^ 64) = BitVec.ofNat 64 n := BitVec.eq_of_toNat_eq (by simp)
  rw [State.laneAdd_eq_ofNat, laneAdd, wraps]
  rfl

/-- The repeated `lane_add(s, 0x58)` is the filler loop (60_exceptions.md R140; 40_pad.md R82). -/
theorem iterate_laneAdd (n : Nat) (s : State) : (fun t => laneAdd t 0x58)^[n] s = State.fill n s := by
  induction n generalizing s with
  | zero => rfl
  | succ n ih =>
    rw [Function.iterate_succ_apply, ih, State.fill]
    exact congrArg (State.fill n) (laneAdd_toNat s Config.filler)

/-! The tests of the consolidated step are the commands' own -/

theorem betweenRuns_toNat (s : State) : (s.mode.toNat = 0 ∨ s.mode.toNat = 3) ↔ s.betweenRuns = true := by
  rw [State.betweenRuns_iff, BitVec.toNat_eq, BitVec.toNat_eq]
  rfl

theorem runOpen_toNat (s : State) : (s.mode.toNat = 1 ∨ s.mode.toNat = 2) ↔ s.runOpen = true := by
  rw [State.runOpen_iff, BitVec.toNat_eq, BitVec.toNat_eq]
  rfl

theorem accum_toNat (s : State) : s.mode.toNat = 1 ↔ s.mode = Mode.accum := by
  rw [BitVec.toNat_eq]
  rfl

theorem width_toNat (w : Byte) : (w.toNat = 8 ∨ w.toNat = 16 ∨ w.toNat = 32) ↔ (widthOfOperand w).isSome = true := by
  rw [Option.isSome_iff_ne_none, ne_eq, widthOfOperand_eq_none, BitVec.toNat_ne, BitVec.toNat_ne, BitVec.toNat_ne]
  simp only [BitVec.toNat_ofNat]
  omega

/-- `log2(w / 8)` is the selector of a width's operand (60_exceptions.md R140; 42_width_dispatch.md R111). -/
theorem log2_operand (width : Width) : BitVec.ofNat 2 (Nat.log2 (width.operand.toNat / 8)) = width.selector := by
  cases width <;> decide

/-! ## The commands -/

theorem not_err_toNat {s : State} (below : s.ignoresCommands = false) : ¬ 4 ≤ s.mode.toNat := by
  rwa [← State.ignoresCommands_iff, Bool.not_eq_true]

/-- What a command answers below ERR: its effect where it is accepted, else its fault (60_exceptions.md R129). -/
def answer (i : Instr) (s : State) : State := if s.accepts i then s.effect i else s.raise (s.faultOf i)

theorem commandStep_init (w : Byte) {s : State} (below : s.ignoresCommands = false) :
    commandStep s (encode (.init w)) = answer (.init w) s := by
  rw [commandStep, if_neg (not_err_toNat below), decode_encode]
  simp only [betweenRuns_toNat, width_toNat]
  cases between : s.betweenRuns with
  | false => simp [answer, State.accepts, State.faultOf, between, ← faultWith_code]
  | true =>
    cases named : widthOfOperand w with
    | none => simp [answer, State.accepts, State.faultOf, between, named, ← faultWith_code]
    | some width =>
      obtain rfl := widthOfOperand_eq_some.1 named
      simp [answer, State.accepts, between, State.effect, State.beginRun, log2_operand]

theorem commandStep_push (b : Byte) {s : State} (below : s.ignoresCommands = false) :
    commandStep s (encode (.push b)) = answer (.push b) s := by
  rw [commandStep, if_neg (not_err_toNat below), decode_encode, answer]
  simp only [ne_eq, accum_toNat, laneAdd_toNat, State.accepts_push_iff]
  by_cases accum : s.mode = Mode.accum
  · by_cases full : s.len.toNat ≥ 2 ^ 32 - 4
    · rw [if_neg (not_not.2 accum), if_pos full, if_neg (by omega), State.faultOf, if_pos accum, ← faultWith_code]
      rfl
    · rw [if_neg (not_not.2 accum), if_neg full, if_pos ⟨accum, by omega⟩]
      rfl
  · rw [if_pos accum, if_neg (fun h => accum h.1), State.faultOf, if_neg accum, ← faultWith_code]
    rfl

theorem commandStep_pad {s : State} (below : s.ignoresCommands = false) : commandStep s (encode .pad) = answer .pad s := by
  rw [commandStep, if_neg (not_err_toNat below), decode_encode]
  simp only [runOpen_toNat, iterate_laneAdd]
  cases run_open : s.runOpen with
  | false => simp [answer, State.accepts, State.faultOf, run_open, ← faultWith_code]
  | true =>
    have accepted : s.accepts .pad = true := run_open
    rw [answer, if_neg (not_not.2 rfl), if_pos accepted]
    rfl

theorem commandStep_sum {s : State} (below : s.ignoresCommands = false) : commandStep s (encode .sum) = answer .sum s := by
  have aligned_iff : s.len.toNat % k s = 0 ↔ s.aligned = true := (State.aligned_iff s).symm
  rw [commandStep, if_neg (not_err_toNat below), decode_encode]
  simp only [runOpen_toNat, ne_eq, aligned_iff]
  cases run_open : s.runOpen with
  | false => simp [answer, State.accepts, State.faultOf, run_open, ← faultWith_code]
  | true =>
    cases aligned : s.aligned with
    | false => simp [answer, State.accepts, State.faultOf, run_open, aligned, ← faultWith_code]
    | true => simp [answer, State.accepts, run_open, aligned, State.effect, State.publish, State.maskedSum]

/-- Below ERR the consolidated step on a command's word is the command's answer (60_exceptions.md R140). -/
theorem commandStep_encode {s : State} (below : s.ignoresCommands = false) (i : Instr) :
    commandStep s (encode i) = answer i s := by
  cases i with
  | init w => exact commandStep_init w below
  | push b => exact commandStep_push b below
  | pad => exact commandStep_pad below
  | sum => exact commandStep_sum below

/-- The machine answers with it below ERR. -/
theorem exec_eq_answer {s : State} (below : s.ignoresCommands = false) (i : Instr) : exec i s = .next (answer i s) := by
  rw [answer]
  split
  · next accepted => exact exec_accepted accepted
  · next refused => exact exec_faults below (Bool.not_eq_true _ ▸ refused)

/-- The machine's answer to a word is the consolidated step's (60_exceptions.md R140). -/
theorem runWord_eq_commandStep (cw : CommandWord) (s : State) : runWord cw s = .next (commandStep s cw) := by
  cases ignores : s.ignoresCommands with
  | true => rw [runWord_ignored ignores, commandStep, if_pos ((State.ignoresCommands_iff s).1 ignores)]
  | false =>
    cases hd : decode cw with
    | error e =>
      rw [runWord_rejected ignores hd, commandStep, if_neg (not_err_toNat ignores), hd, ← faultWith_code]
      rfl
    | ok i =>
      rw [runWord_ok hd, ← encode_of_decode hd, commandStep_encode ignores, exec_eq_answer ignores]

end Consolidated

/-- Settles O36: the consolidated step on a word is the machine's, and reset zeroes the registers. -/
theorem stepIsTheConsolidatedStep : Obligations.StepIsTheConsolidatedStep :=
  ⟨fun s cw rest hh => (step_of_command hh).trans (Consolidated.runWord_eq_commandStep cw (s.setHost rest)), fun _ _ => step_of_reset⟩

end Sys2Proof.Machine

/-! PROOFS. What the commands leave unchanged (10_state.md R36) and how long a result is shown (42_width_dispatch.md R116, R117). -/

namespace Sys2Proof.Machine

/-! ## Frames -/

/-- A command that enters ERR has raised a fault, which writes MODE and ERR only (10_state.md R36; 60_exceptions.md R126). -/
theorem exec_frame_of_fault {i : Instr} {s t : State} (h : exec i s = .next t) (entered : t.mode = Mode.err)
    (before : s.mode ≠ Mode.err) : t = { s with mode := t.mode, err := t.err } := by
  rcases exec_cases i s with ⟨_, e⟩ | ⟨_, _, e⟩ | ⟨_, accepted, e⟩ <;> cases h.symm.trans e
  · exact absurd entered before
  · rfl
  · rcases State.effect_mode accepted with mode | mode | mode <;> simp [mode] at entered

/-- A command that does not end in ERR was ignored or had its effect. -/
theorem exec_of_ne_err {i : Instr} {s t : State} (h : exec i s = .next t) (no_fault : t.mode ≠ Mode.err) :
    t = s ∨ t = s.effect i := by
  rcases exec_cases i s with ⟨_, e⟩ | ⟨_, _, e⟩ | ⟨_, _, e⟩ <;> cases h.symm.trans e
  · exact .inl rfl
  · exact absurd rfl no_fault
  · exact .inr rfl

/-- Settles O37: no accepted command writes ERR, and no command touches the host's moves. -/
theorem initFrame : Obligations.InitFrame := by
  refine fun w s t h => ⟨exec_frame_of_fault h, fun no_fault => ?_, exec_host h⟩
  rcases exec_of_ne_err h no_fault with rfl | rfl
  · rfl
  · exact State.effect_err _ s

/-- Settles O38: PUSH's effect is `lane_add`. -/
theorem pushFrame : Obligations.PushFrame := by
  refine fun b s t h => ⟨exec_frame_of_fault h, fun no_fault => ?_⟩
  rcases exec_of_ne_err h no_fault with rfl | rfl <;> rfl

/-- PAD writes MODE, ACC and LEN (10_state.md R36). -/
theorem State.effect_pad_frame (s : State) : s.effect .pad =
    { s with mode := (s.effect .pad).mode, acc := (s.effect .pad).acc, len := (s.effect .pad).len } :=
  congrArg State.closeInput (State.fill_frame s.padAmount s)

/-- Settles O39: PAD's effect is the filler loop and one write of MODE. -/
theorem padFrame : Obligations.PadFrame := by
  refine fun s t h => ⟨exec_frame_of_fault h, fun no_fault => ?_⟩
  rcases exec_of_ne_err h no_fault with rfl | rfl
  · rfl
  · exact State.effect_pad_frame s

/-- Settles O40: SUM's effect is its three writes. -/
theorem sumFrame : Obligations.SumFrame := by
  refine fun s t h => ⟨exec_frame_of_fault h, fun no_fault => ?_⟩
  rcases exec_of_ne_err h no_fault with rfl | rfl <;> rfl

/-! ## The result -/

/-- Between runs only INIT of a width is accepted (60_exceptions.md R122). -/
theorem eq_init_of_accepts_of_between {i : Instr} {s : State} (between : s.mode = Mode.idle ∨ s.mode = Mode.done)
    (accepted : s.accepts i = true) : ∃ width : Width, i = .init width.operand := by
  have not_refused : ¬ s.Refuses i := fun h => by
    rw [State.accepts_of_not_allows h.2] at accepted
    contradiction
  cases i with
  | init w =>
    obtain ⟨width, rfl⟩ := exists_width_of_accepts_init accepted
    exact ⟨width, rfl⟩
  | push b => exact absurd (State.refuses_push_iff.2 (between.imp_right .inr)) not_refused
  | pad => exact absurd (State.refuses_pad_iff.2 between) not_refused
  | sum => exact absurd (State.refuses_sum_iff.2 between) not_refused

/-- Settles O43: the step keeps the registers, is reset, raises a fault, or is the one command DONE accepts. -/
theorem resultLastsUntilInitOrReset : Obligations.ResultLastsUntilInitOrReset := by
  intro s t is_done h
  rcases step_kinds h with ⟨_, rfl⟩ | ⟨rest, rfl, reset⟩ | ⟨_, _, _, rfl⟩ | ⟨i, rest, hh, accepted, rfl⟩
  · exact .inl ⟨is_done, rfl⟩
  · exact .inr (.inr (.inr ⟨rfl, reset.imp (fun hh => ⟨rest, hh⟩) (fun ⟨cw, hh⟩ => ⟨cw, rest, hh⟩)⟩))
  · exact .inr (.inl ⟨rfl, rfl, rfl, State.ports_result _⟩)
  · obtain ⟨width, rfl⟩ := eq_init_of_accepts_of_between (.inr is_done) accepted
    exact .inr (.inr (.inl ⟨rfl, width, rest, hh⟩))

/-- The ports show the pair (VALUE, LENGTH), in DONE only (10_state.md R32). -/
theorem State.ports_result_eq_some_iff {s : State} {r : Value × Length} :
    s.ports.result = some r ↔ s.mode = Mode.done ∧ (s.value, s.length) = r := by
  rw [State.ports_result]
  split <;> simp [*]

/-- Of the accepted commands SUM alone goes to DONE (60_exceptions.md R138). -/
theorem eq_sum_of_effect_done {i : Instr} {s : State} (accepted : s.accepts i = true) (is_done : (s.effect i).mode = Mode.done) :
    i = .sum := by
  cases i with
  | init w => exact absurd (show Mode.accum = Mode.done from is_done) (by decide)
  | push b =>
    have accum : (s.effect (.push b)).mode = Mode.accum := (State.accepts_push_iff.1 accepted).1
    exact absurd (accum.symm.trans is_done) (by decide)
  | pad => exact absurd (show Mode.padded = Mode.done from is_done) (by decide)
  | sum => rfl

/-- Settles O44: a step into DONE that is no SUM has kept MODE and the result. -/
theorem resultOnlyFromFinishedRun : Obligations.ResultOnlyFromFinishedRun := by
  intro s t r _ h shown
  obtain ⟨is_done, rfl⟩ := State.ports_result_eq_some_iff.1 shown
  rcases step_kinds h with ⟨_, rfl⟩ | ⟨_, rfl, _⟩ | ⟨_, _, _, rfl⟩ | ⟨i, rest, hh, accepted, rfl⟩
  · exact .inl shown
  · exact absurd (show Mode.idle = Mode.done from is_done) (by decide)
  · exact absurd (show Mode.err = Mode.done from is_done) (by decide)
  · obtain rfl := eq_sum_of_effect_done (s := s.setHost rest) ((State.accepts_setHost i rest s).trans accepted) is_done
    exact .inr ⟨⟨rest, hh⟩, (State.runOpen_iff s).1 (Bool.and_eq_true_iff.1 accepted).1, rfl⟩

end Sys2Proof.Machine

/-! PROOFS. Whole runs (42_width_dispatch.md R115): INIT, the bytes, PAD and SUM, one command after the other. -/

namespace Sys2Proof.Machine

/-! ## Sequences of commands -/

/-- The word of an accepted command has its effect, and the other words run from there. -/
theorem afterWords_encode_cons {i : Instr} {s : State} (accepted : s.accepts i = true) (cmds : List Instr) :
    afterWords ((i :: cmds).map encode) s = afterWords (cmds.map encode) (s.effect i) :=
  afterWords_cons _ ((runWord_encode i s).trans (exec_accepted accepted))

/-- A state in a run of width `w` whose bytes so far are `buf`, before the host's coming `moves`. -/
structure InRun (w : Width) (mode : Mode) (moves : List HostMove) (buf : List Byte) (s : State) : Prop where
  mode_eq : s.mode = mode
  selector : s.wsel = w.selector
  host_eq : s.host = moves
  represents : Represents s buf

/-- Between runs INIT of a width is accepted (42_width_dispatch.md R112). -/
theorem State.accepts_init_operand {s : State} (between : s.mode = Mode.idle ∨ s.mode = Mode.done) (w : Width) :
    s.accepts (.init w.operand) = true := by
  rw [State.accepts, (State.betweenRuns_iff s).2 between, widthOfOperand_operand]
  rfl

/-- INIT of a width starts a run with no bytes (42_width_dispatch.md R112). -/
theorem inRun_init {s : State} (legal : Legal s) (between : s.mode = Mode.idle ∨ s.mode = Mode.done) (w : Width) :
    InRun w Mode.accum s.host [] (s.effect (.init w.operand)) := by
  have legal' := legal.effect (State.accepts_init_operand between w)
  exact ⟨rfl, congrArg State.wsel (State.effect_init_operand w s), rfl, legal', rfl, rfl⟩

section
variable {w : Width} {mode : Mode} {moves : List HostMove} {buf : List Byte} {s : State}

/-- PUSH appends its byte (41_checksum.md R92). -/
theorem InRun.push (run : InRun w Mode.accum moves buf s) (b : Byte) (room : buf.length < 0xFFFFFFFC) :
    s.accepts (.push b) = true ∧ InRun w Mode.accum moves (buf ++ [b]) (s.effect (.push b)) := by
  have accepted : s.accepts (.push b) = true := State.accepts_push_iff.2 ⟨run.mode_eq, run.represents.len_eq ▸ room⟩
  have represents := run.represents.effect accepted
  rw [show ghostExec (.push b) s buf = buf ++ [b] from if_pos accepted] at represents
  exact ⟨accepted, run.mode_eq, run.selector, run.host_eq, represents⟩

/-- One PUSH a byte appends the bytes, as long as LEN does not pass MAXLEN (41_checksum.md R92, R95). -/
theorem InRun.pushes {bytes : List Byte} (run : InRun w Mode.accum moves buf s) (room : buf.length + bytes.length ≤ 0xFFFFFFFC) :
    ∃ t, afterWords ((bytes.map Instr.push).map encode) s = .next t ∧ InRun w Mode.accum moves (buf ++ bytes) t := by
  induction bytes generalizing buf s with
  | nil => exact ⟨s, rfl, by rwa [List.append_nil]⟩
  | cons b bytes ih =>
    rw [List.length_cons] at room
    obtain ⟨accepted, next⟩ := run.push b (by omega)
    obtain ⟨t, answer, last⟩ := ih next (by rw [List.length_append, List.length_singleton]; omega)
    refine ⟨t, (afterWords_encode_cons accepted _).trans answer, ?_⟩
    rwa [List.append_assoc, List.singleton_append] at last

/-- PAD pads the bytes and closes the input (40_pad.md R82). -/
theorem InRun.pad (run : InRun w Mode.accum moves buf s) :
    s.accepts .pad = true ∧ InRun w Mode.padded moves (Reference.pad buf w) (s.effect .pad) := by
  have accepted : s.accepts .pad = true := (State.runOpen_iff s).2 (.inl run.mode_eq)
  have represents := run.represents.effect accepted
  rw [show ghostExec .pad s buf = Reference.padTo s.alignment buf from if_pos accepted,
    State.alignment_of_selector run.selector] at represents
  exact ⟨accepted, rfl, (State.fill_wsel _ s).trans run.selector, (State.effect_host _ s).trans run.host_eq, represents⟩

/-- SUM ends an open run with a whole number of words (41_checksum.md R97). -/
theorem InRun.sum (run : InRun w mode moves buf s) (run_open : mode = Mode.accum ∨ mode = Mode.padded)
    (aligned : buf.length % w.alignment = 0) :
    s.accepts .sum = true ∧ InRun w Mode.done moves buf (s.effect .sum) := by
  have aligned_len : s.aligned = true := by
    rw [State.aligned_iff, run.represents.len_eq, run.selector, alignmentOf_selector, aligned]
  have accepted : s.accepts .sum = true := by
    rw [State.accepts, (State.runOpen_iff s).2 (run.mode_eq ▸ run_open), aligned_len]
    rfl
  have represents := run.represents.effect accepted
  rw [show ghostExec .sum s buf = buf from if_pos accepted] at represents
  exact ⟨accepted, rfl, run.selector, run.host_eq, represents⟩

/-- INIT and one PUSH a byte open a run over the bytes (42_width_dispatch.md R115). -/
theorem afterWords_runCommands {bytes : List Byte} (legal : Legal s) (between : s.mode = Mode.idle ∨ s.mode = Mode.done)
    (room : bytes.length ≤ 0xFFFFFFFC) (finish : List Instr) :
    ∃ t, afterWords ((runCommands w bytes finish).map encode) s = afterWords (finish.map encode) t ∧
      InRun w Mode.accum s.host bytes t := by
  obtain ⟨t, answer, run⟩ := (inRun_init legal between w).pushes (bytes := bytes) (by rwa [List.length_nil, Nat.zero_add])
  refine ⟨t, ?_, run⟩
  rw [runCommands, afterWords_encode_cons (State.accepts_init_operand between w), List.map_append, afterWords_append _ _ answer]

/-- STATUS in DONE of a legal state: no fault, aligned, MODE 3 (10_state.md R30, R34). -/
theorem Legal.statusPort_of_done (legal : Legal s) (is_done : s.mode = Mode.done) : s.statusPort = 0x0B#8 := by
  have no_fault := legal.err_eq_zero_of_between (.inr is_done)
  have aligned := (State.aligned_iff s).2 (legal.done_aligned is_done)
  rw [State.statusPort, no_fault, aligned, is_done]
  rfl

/-- What the ports show after a run (42_width_dispatch.md R115): `t` is in DONE with the checksum of the bytes and their number, for the
host's coming `moves`. -/
theorem InRun.result (run : InRun w Mode.done moves buf s) :
    s.host = moves ∧ s.mode = Mode.done ∧ Reference.checksum buf w = some s.value.toNat ∧ s.length.toNat = buf.length ∧
      s.widthPort.toNat = w.bits ∧ s.statusPort = 0x0B#8 := by
  obtain ⟨checksum, length, _⟩ := resultIsTheChecksumOfTheBuffer s buf w run.represents run.selector run.mode_eq
  refine ⟨run.host_eq, run.mode_eq, checksum, length, ?_, run.represents.legal.statusPort_of_done run.mode_eq⟩
  rw [State.widthPort_of_selector run.selector]
  cases w <;> rfl

end

/-- Settles O55: INIT and the pushes open a run over the bytes, PAD pads it, and SUM ends it, the padded length being aligned. -/
theorem wholeRunGivesTheChecksum : Obligations.WholeRunGivesTheChecksum := by
  intro s w bytes legal between room
  have bytes_room : bytes.length ≤ 0xFFFFFFFC := by
    rw [Reference.pad, Reference.padTo_length] at room
    omega
  obtain ⟨t, answer, run⟩ := afterWords_runCommands (w := w) legal between bytes_room [.pad, .sum]
  obtain ⟨pad_accepted, padded⟩ := run.pad
  obtain ⟨sum_accepted, finished⟩ := padded.sum (.inr rfl) (Reference.padTo_length_mod w.alignment_pos bytes)
  refine ⟨_, ?_, finished.result⟩
  rw [answer, afterWords_encode_cons pad_accepted, afterWords_encode_cons sum_accepted]
  rfl

/-- Settles O56: as the whole run, SUM finding the bytes aligned. -/
theorem runWithoutPadGivesTheChecksum : Obligations.RunWithoutPadGivesTheChecksum := by
  intro s w bytes legal between room aligned
  obtain ⟨t, answer, run⟩ := afterWords_runCommands (w := w) legal between room [.sum]
  obtain ⟨sum_accepted, finished⟩ := run.sum (.inl rfl) aligned
  refine ⟨_, ?_, finished.result⟩
  rw [answer, afterWords_encode_cons sum_accepted]
  rfl

end Sys2Proof.Machine

/-! PROOFS. The legal runs (70_reset_and_hazards.md R154): what a state accepts is what may follow in a sequence of runs. -/

namespace Sys2Proof.Machine

/-! ## What may follow in the open run -/

/-- `finish ::= SUM | PAD PAD* SUM`, the first for a length `n` that is a multiple of `k` (70_reset_and_hazards.md R154). -/
def IsFinish (k n : Nat) (finish : List Instr) : Prop :=
  (finish = [.sum] ∧ n % k = 0) ∨ ∃ m, finish = .pad :: (List.replicate m .pad ++ [.sum])

/-- In ACCUM a run goes on with PUSHes, LEN not passing MAXLEN, and a finish (70_reset_and_hazards.md R154). -/
def IsAccumTail (s : State) (tail : List Instr) : Prop :=
  ∃ (bytes : List Byte) (finish : List Instr), s.len.toNat + bytes.length ≤ 0xFFFFFFFC ∧
    IsFinish (alignmentOf s.wsel) (s.len.toNat + bytes.length) finish ∧ tail = bytes.map .push ++ finish

/-- The commands that complete the run a state is in: none between runs, and in PADDED the rest of `PAD* SUM`. -/
def IsRunTail (s : State) (tail : List Instr) : Prop :=
  ((s.mode = Mode.idle ∨ s.mode = Mode.done) ∧ tail = []) ∨ (s.mode = Mode.accum ∧ IsAccumTail s tail) ∨
    (s.mode = Mode.padded ∧ ∃ m, tail = List.replicate m .pad ++ [.sum])

section
variable {s : State} {tail : List Instr}

theorem isRunTail_iff_of_between (between : s.mode = Mode.idle ∨ s.mode = Mode.done) : IsRunTail s tail ↔ tail = [] := by
  rcases between with h | h <;> simp [IsRunTail, h]

theorem isRunTail_iff_of_accum (accum : s.mode = Mode.accum) : IsRunTail s tail ↔ IsAccumTail s tail := by
  simp [IsRunTail, accum]

theorem isRunTail_iff_of_padded (padded : s.mode = Mode.padded) :
    IsRunTail s tail ↔ ∃ m, tail = List.replicate m .pad ++ [.sum] := by
  simp [IsRunTail, padded]

/-- An open run is not complete (70_reset_and_hazards.md R154). -/
theorem IsRunTail.ne_nil (h : IsRunTail s tail) (run_open : s.mode = Mode.accum ∨ s.mode = Mode.padded) : tail ≠ [] := by
  rcases run_open with mode | mode
  · obtain ⟨bytes, _, _, ⟨rfl, _⟩ | ⟨m, rfl⟩, rfl⟩ := (isRunTail_iff_of_accum mode).1 h <;> simp
  · obtain ⟨m, rfl⟩ := (isRunTail_iff_of_padded mode).1 h
    simp

/-- Every run can be completed (70_reset_and_hazards.md R154). -/
theorem exists_isRunTail (legal : Legal s) (below : s.ignoresCommands = false) : ∃ tail, IsRunTail s tail := by
  rcases s.mode_cases with mode | mode | mode | mode | ignores
  · exact ⟨[], (isRunTail_iff_of_between (.inl mode)).2 rfl⟩
  · exact ⟨[.pad, .sum], (isRunTail_iff_of_accum mode).2 ⟨[], _, legal.len_le, .inr ⟨0, rfl⟩, rfl⟩⟩
  · exact ⟨[.sum], (isRunTail_iff_of_padded mode).2 ⟨0, rfl⟩⟩
  · exact ⟨[], (isRunTail_iff_of_between (.inr mode)).2 rfl⟩
  · exact absurd ignores (ne_true_of_eq_false below)

/-! The first command of a tail, by command: it is accepted, and the rest is a tail after it -/

/-- A tail with PUSH at its front: one byte fewer of those LEN has room for (70_reset_and_hazards.md R154). -/
theorem isAccumTail_push_iff {b : Byte} :
    IsAccumTail s (.push b :: tail) ↔ s.len.toNat < 0xFFFFFFFC ∧ IsAccumTail (s.laneAdd b) tail := by
  constructor
  · rintro ⟨bytes, finish, room, ends, same⟩
    cases bytes with
    | nil => rcases ends with ⟨rfl, _⟩ | ⟨m, rfl⟩ <;> cases same
    | cons b' bytes =>
      obtain ⟨⟨⟩, rfl⟩ := List.cons.inj same
      rw [List.length_cons] at room ends
      have len := State.laneAdd_len_toNat (b := b) (s := s) (by omega)
      refine ⟨by omega, bytes, finish, by omega, ?_, rfl⟩
      rwa [len, Nat.add_assoc, Nat.add_comm 1]
  · rintro ⟨free, bytes, finish, room, ends, rfl⟩
    have len := State.laneAdd_len_toNat (b := b) (s := s) (by omega)
    rw [len, Nat.add_assoc, Nat.add_comm 1, ← List.length_cons (a := b)] at room ends
    exact ⟨b :: bytes, finish, room, ends, rfl⟩

/-- A tail with PAD at its front goes on as in PADDED (70_reset_and_hazards.md R154). -/
theorem isAccumTail_pad_iff (len_le : s.len.toNat ≤ 0xFFFFFFFC) :
    IsAccumTail s (.pad :: tail) ↔ ∃ m, tail = List.replicate m .pad ++ [.sum] := by
  constructor
  · rintro ⟨bytes, finish, _, ends, same⟩
    cases bytes with
    | nil =>
      rcases ends with ⟨rfl, _⟩ | ⟨m, rfl⟩
      · cases same
      · exact ⟨m, (List.cons.inj same).2⟩
    | cons b bytes => cases same
  · rintro ⟨m, rfl⟩
    exact ⟨[], _, len_le, .inr ⟨m, rfl⟩, rfl⟩

/-- A tail with SUM at its front is that SUM, at a word boundary (70_reset_and_hazards.md R154). -/
theorem isAccumTail_sum_iff (len_le : s.len.toNat ≤ 0xFFFFFFFC) :
    IsAccumTail s (.sum :: tail) ↔ s.len.toNat % alignmentOf s.wsel = 0 ∧ tail = [] := by
  constructor
  · rintro ⟨bytes, finish, _, ends, same⟩
    cases bytes with
    | nil =>
      rcases ends with ⟨rfl, aligned⟩ | ⟨m, rfl⟩
      · exact ⟨aligned, (List.cons.inj same).2⟩
      · cases same
    | cons b bytes => cases same
  · rintro ⟨aligned, rfl⟩
    exact ⟨[], _, len_le, .inl ⟨rfl, aligned⟩, rfl⟩

/-- No tail starts a further run (70_reset_and_hazards.md R154). -/
theorem not_isAccumTail_init {w : Byte} : ¬ IsAccumTail s (.init w :: tail) := by
  rintro ⟨bytes, finish, _, ends, same⟩
  cases bytes with
  | nil => rcases ends with ⟨rfl, _⟩ | ⟨m, rfl⟩ <;> cases same
  | cons b bytes => cases same

theorem isRunTail_cons_of_accum {i : Instr} (legal : Legal s) (accum : s.mode = Mode.accum) :
    IsRunTail s (i :: tail) ↔ s.accepts i = true ∧ IsRunTail (s.effect i) tail := by
  have run_open : s.runOpen = true := (State.runOpen_iff s).2 (.inl accum)
  rw [isRunTail_iff_of_accum accum]
  cases i with
  | init w => exact iff_of_false not_isAccumTail_init (by simp [State.accepts_init_of_runOpen (.inl accum)])
  | push b =>
    rw [isAccumTail_push_iff, State.accepts_push_iff, and_iff_right accum]
    exact and_congr_right' (isRunTail_iff_of_accum (s := s.laneAdd b) accum).symm
  | pad =>
    rw [isAccumTail_pad_iff legal.len_le, isRunTail_iff_of_padded rfl]
    exact (and_iff_right run_open).symm
  | sum =>
    rw [isAccumTail_sum_iff legal.len_le, isRunTail_iff_of_between (.inr rfl), State.accepts, run_open, Bool.true_and,
      State.aligned_iff]

theorem isRunTail_cons_of_padded {i : Instr} (legal : Legal s) (padded : s.mode = Mode.padded) :
    IsRunTail s (i :: tail) ↔ s.accepts i = true ∧ IsRunTail (s.effect i) tail := by
  have run_open : s.runOpen = true := (State.runOpen_iff s).2 (.inr padded)
  have aligned : s.aligned = true := (State.aligned_iff s).2 (legal.padded_aligned padded)
  have repeated (m : Nat) : i :: tail = List.replicate m .pad ++ [.sum] ↔
      (m = 0 ∧ i = .sum ∧ tail = []) ∨ ∃ n, m = n + 1 ∧ i = .pad ∧ tail = List.replicate n .pad ++ [.sum] := by
    cases m <;> simp [List.replicate_succ]
  simp only [isRunTail_iff_of_padded padded, repeated]
  cases i with
  | init w => simp [State.accepts_init_of_runOpen (.inr padded)]
  | push b => simp [State.accepts_push_iff, padded]
  | pad =>
    rw [isRunTail_iff_of_padded rfl]
    simp [State.accepts, run_open]
  | sum =>
    rw [isRunTail_iff_of_between (.inr rfl)]
    simp [State.accepts, run_open, aligned]

/-- In an open run a command may follow exactly if it is accepted and leaves a run that can be completed as the rest says. -/
theorem isRunTail_cons_iff {i : Instr} (legal : Legal s) (run_open : s.mode = Mode.accum ∨ s.mode = Mode.padded) :
    IsRunTail s (i :: tail) ↔ s.accepts i = true ∧ IsRunTail (s.effect i) tail := by
  rcases run_open with mode | mode
  · exact isRunTail_cons_of_accum legal mode
  · exact isRunTail_cons_of_padded legal mode

/-- A run is INIT of a width and what completes the run it opens (70_reset_and_hazards.md R154). -/
theorem isRun_iff (s : State) {cmds : List Instr} :
    IsRun cmds ↔ ∃ (w : Width) (tail : List Instr), cmds = .init w.operand :: tail ∧ IsRunTail (s.effect (.init w.operand)) tail := by
  have opened (w : Width) (tail : List Instr) : IsRunTail (s.effect (.init w.operand)) tail ↔
      ∃ (bytes : List Byte) (finish : List Instr), bytes.length ≤ 0xFFFFFFFC ∧ IsFinish w.alignment bytes.length finish ∧
        tail = bytes.map .push ++ finish := by
    rw [isRunTail_iff_of_accum rfl, State.effect_init_operand]
    simp [IsAccumTail]
  constructor
  · rintro ⟨w, bytes, finish, room, ends, rfl⟩
    exact ⟨w, _, rfl, (opened w _).2 ⟨bytes, finish, room, ends, rfl⟩⟩
  · rintro ⟨w, tail, rfl, completes⟩
    obtain ⟨bytes, finish, room, ends, rfl⟩ := (opened w tail).1 completes
    exact ⟨w, bytes, finish, room, ends, rfl⟩

end

/-! ## What may follow in the sequence of runs -/

/-- The commands are the beginning of a list that completes the run the state is in and goes on with further runs (70_reset_and_hazards.md R154). -/
def Continues (s : State) (cmds : List Instr) : Prop :=
  ∃ (tail : List Instr) (runs : List (List Instr)), IsRunTail s tail ∧ (∀ r ∈ runs, IsRun r) ∧ cmds <+: tail ++ runs.flatten

section
variable {s : State} {i : Instr} {cmds : List Instr}

/-- Between runs this is the grammar of R154. -/
theorem continues_iff_isLegalSequence (between : s.mode = Mode.idle ∨ s.mode = Mode.done) :
    Continues s cmds ↔ IsLegalSequence cmds := by
  simp [Continues, IsLegalSequence, isRunTail_iff_of_between between]

theorem continues_nil (legal : Legal s) (below : s.ignoresCommands = false) : Continues s [] := by
  obtain ⟨tail, completes⟩ := exists_isRunTail legal below
  exact ⟨tail, [], completes, by simp, List.nil_prefix⟩

theorem continues_cons_of_between (between : s.mode = Mode.idle ∨ s.mode = Mode.done) :
    Continues s (i :: cmds) ↔ s.accepts i = true ∧ Continues (s.effect i) cmds := by
  rw [continues_iff_isLegalSequence between]
  constructor
  · rintro ⟨runs, are_runs, is_prefix⟩
    cases runs with
    | nil => simp at is_prefix
    | cons r runs =>
      obtain ⟨first, later⟩ := List.forall_mem_cons.1 are_runs
      obtain ⟨w, tail, rfl, completes⟩ := (isRun_iff s).1 first
      obtain ⟨rfl, rest⟩ := List.cons_prefix_cons.1 is_prefix
      exact ⟨State.accepts_init_operand between w, tail, runs, completes, later, rest⟩
  · rintro ⟨accepted, tail, runs, completes, later, rest⟩
    obtain ⟨w, rfl⟩ := eq_init_of_accepts_of_between between accepted
    have first : IsRun (.init w.operand :: tail) := (isRun_iff s).2 ⟨w, tail, rfl, completes⟩
    exact ⟨_ :: runs, List.forall_mem_cons.2 ⟨first, later⟩, List.cons_prefix_cons.2 ⟨rfl, rest⟩⟩

theorem continues_cons_of_runOpen (legal : Legal s) (run_open : s.mode = Mode.accum ∨ s.mode = Mode.padded) :
    Continues s (i :: cmds) ↔ s.accepts i = true ∧ Continues (s.effect i) cmds := by
  constructor
  · rintro ⟨tail, runs, completes, later, is_prefix⟩
    cases tail with
    | nil => exact absurd rfl (completes.ne_nil run_open)
    | cons j tail =>
      obtain ⟨rfl, rest⟩ := List.cons_prefix_cons.1 is_prefix
      obtain ⟨accepted, completes⟩ := (isRunTail_cons_iff legal run_open).1 completes
      exact ⟨accepted, tail, runs, completes, later, rest⟩
  · rintro ⟨accepted, tail, runs, completes, later, rest⟩
    exact ⟨i :: tail, runs, (isRunTail_cons_iff legal run_open).2 ⟨accepted, completes⟩, later, List.cons_prefix_cons.2 ⟨rfl, rest⟩⟩

/-- A command may follow in the sequence exactly if the machine accepts it (70_reset_and_hazards.md R154). -/
theorem continues_cons_iff (legal : Legal s) (below : s.ignoresCommands = false) :
    Continues s (i :: cmds) ↔ s.accepts i = true ∧ Continues (s.effect i) cmds := by
  rcases s.mode_cases with mode | mode | mode | mode | ignores
  · exact continues_cons_of_between (.inl mode)
  · exact continues_cons_of_runOpen legal (.inl mode)
  · exact continues_cons_of_runOpen legal (.inr mode)
  · exact continues_cons_of_between (.inr mode)
  · exact absurd ignores (ne_true_of_eq_false below)

end

/-! ## The machine over a sequence of words -/

/-- The words are commands that may follow (70_reset_and_hazards.md R154). -/
def DecodeToContinuation (s : State) (cws : List CommandWord) : Prop :=
  ∃ cmds : List Instr, cws.map decode = cmds.map .ok ∧ Continues s cmds

theorem decodeToContinuation_cons_iff {s : State} (legal : Legal s) (below : s.ignoresCommands = false) {cw : CommandWord}
    {cws : List CommandWord} : DecodeToContinuation s (cw :: cws) ↔
      ∃ i, decode cw = .ok i ∧ s.accepts i = true ∧ DecodeToContinuation (s.effect i) cws := by
  constructor
  · rintro ⟨cmds, decoded, follows⟩
    cases cmds with
    | nil => cases decoded
    | cons i cmds =>
      obtain ⟨first, later⟩ := List.cons.inj decoded
      obtain ⟨accepted, follows⟩ := (continues_cons_iff legal below).1 follows
      exact ⟨i, first, accepted, cmds, later, follows⟩
  · rintro ⟨i, first, accepted, cmds, later, follows⟩
    exact ⟨i :: cmds, by rw [List.map_cons, List.map_cons, first, later], (continues_cons_iff legal below).2 ⟨accepted, follows⟩⟩

/-- In ERR a sequence of words does nothing (60_exceptions.md R128). -/
theorem afterWords_of_err {s : State} (err : s.mode = Mode.err) (cws : List CommandWord) : afterWords cws s = .next s := by
  induction cws with
  | nil => rfl
  | cons cw cws ih => rw [afterWords_cons cws (runWord_ignored (State.ignores_of_err err) cw), ih]

/-- An accepted command leaves the machine below ERR (60_exceptions.md R138). -/
theorem State.effect_not_ignores {i : Instr} {s : State} (accepted : s.accepts i = true) :
    (s.effect i).ignoresCommands = false := by
  apply State.not_ignores_of_mode
  rcases State.effect_mode accepted with mode | mode | mode <;> simp [mode]

theorem State.ne_err_of_not_ignores {s : State} (below : s.ignoresCommands = false) : s.mode ≠ Mode.err := fun err =>
  ne_true_of_eq_false below (State.ignores_of_err err)

/-- Words raise no fault exactly if they are commands that may follow, one after the other (70_reset_and_hazards.md R154). -/
theorem afterWords_ne_err_iff (cws : List CommandWord) {s : State} (legal : Legal s) (below : s.ignoresCommands = false) :
    ∃ t, afterWords cws s = .next t ∧ (t.mode ≠ Mode.err ↔ DecodeToContinuation s cws) := by
  induction cws generalizing s with
  | nil =>
    exact ⟨s, rfl, iff_of_true (State.ne_err_of_not_ignores below) ⟨[], rfl, continues_nil legal below⟩⟩
  | cons cw cws ih =>
    rw [decodeToContinuation_cons_iff legal below]
    rcases runWord_cases cw s with ⟨ignores, _⟩ | ⟨_, f, fault⟩ | ⟨_, i, decoded, accepted, effect⟩
    · exact absurd ignores (ne_true_of_eq_false below)
    · refine ⟨s.raise f, by rw [afterWords_cons cws fault, afterWords_of_err rfl], iff_of_false (not_not.2 rfl) ?_⟩
      rintro ⟨i, decoded, accepted, _⟩
      have same := fault.symm.trans ((runWord_ok decoded s).trans (exec_accepted accepted))
      exact State.ne_err_of_not_ignores (State.effect_not_ignores accepted)
        (congrArg State.mode (Host.Outcome.next.inj same)).symm
    · obtain ⟨t, answer, no_fault_iff⟩ := ih (legal.effect accepted) (State.effect_not_ignores accepted)
      refine ⟨t, (afterWords_cons cws effect).trans answer, no_fault_iff.trans ⟨fun later => ⟨i, decoded, accepted, later⟩, ?_⟩⟩
      rintro ⟨j, decoded', _, later⟩
      rwa [Except.ok.inj (decoded.symm.trans decoded')]

/-- Settles O57: between runs what may follow is what the grammar of legal runs allows. -/
theorem faultFreeSequencesAreLegalRuns : Obligations.FaultFreeSequencesAreLegalRuns := by
  intro s cws legal between
  have below : s.ignoresCommands = false := State.not_ignores_of_mode (by rcases between with h | h <;> simp [h])
  simpa only [DecodeToContinuation, continues_iff_isLegalSequence between] using afterWords_ne_err_iff cws legal below

end Sys2Proof.Machine
